-- ==== Sys2Proof/Word.lean ====
section
/-! DEFINITION. The word types of the engine (00_scope section 5: every value is an unsigned u8, u32 or u64)
and the fixed-size tuples of words its registers are made of. -/

namespace Sys2Proof

/-- `u8`: one data byte. -/
abbrev Byte := BitVec 8

/-- `u32`: one word (R2: "Every word is an unsigned 32-bit integer"). -/
abbrev Word := BitVec 32

/-- `u64`: a block counter value (R6). -/
abbrev U64 := BitVec 64

/-- A key: eight words (R11). -/
abbrev Key := Vector Word 8

/-- A nonce: three words (R12). -/
abbrev Nonce := Vector Word 3

/-- A sixteen-word block: the matrix, the working block, a keystream block (R15, R17, R22). -/
abbrev Block := Vector Word 16

/-- The operand words of a command in arrival order, `OPW[0..12]` (R24). -/
abbrev Opw := Vector Word 13

end Sys2Proof
end

