-- ==== Sys2Proof/Config.lean ====
section
/-! DEFINITION. The fixed parameters of this hardware (00_scope section 4). It has no free value: "Nothing in this
hardware is left unpredictable" (93_implementation_defined, end of part 1), so no opaque constant stands here.
The open parameters T_* and DOUT_SLACK are no arguments of the model (log 4, log 13). -/

namespace Sys2Proof

/-- `DOUBLE_ROUNDS` (00_scope section 4; R69; 90_conflicts C4). -/
abbrev Config.doubleRounds : Nat := 10

/-- `BLOCK_BYTES`: the cursor value from which the buffer is used up (R18). -/
abbrev Config.blockBytes : Nat := 64

/-- `KEY_BYTES` (R11, R52). -/
abbrev Config.keyBytes : Nat := 32

/-- `NONCE_BYTES` (R12, R52). -/
abbrev Config.nonceBytes : Nat := 12

/-- The words of the longest command, format K (R45). -/
abbrev Config.commandWords : Nat := 14

end Sys2Proof
end

