-- ==== Sys2Proof/Machine/Operands.lean ====
section
/-! DEFINITION. The arithmetic primitives of 00_scope section 6 and the operand forms of 30_encoding section 2:
addition, rotation, byte packing, the counter's halves, the operand words of format K, the response word. -/

namespace Sys2Proof.Machine

/-- R2: `Add32(a, b) = (a + b) mod 2^32`. -/
def add32 (a b : Word) : Word := a + b

/-- R3: `rotl(v, n) = ((v << n) | (v >> (32 - n))) mod 2^32`; only n = 16, 12, 8, 7 occur. -/
def rotl (v : Word) (n : Nat) : Word := (v <<< n) ||| (v >>> (32 - n))

/-- R5: `pack4(b0, b1, b2, b3)`, `b0` in bits 7:0. -/
def pack4 (b0 b1 b2 b3 : Byte) : Word := b3 ++ b2 ++ b1 ++ b0

/-- Byte `j` of a word, counted from the least significant: `w[8j+7 : 8j]` (R17, R31). -/
def wordByte (w : Word) (j : Nat) : Byte := BitVec.extractLsb' (8 * j) 8 w

/-- R5: `unpack4(w)`, the four bytes of a word, least significant first. -/
def unpack4 (w : Word) : List Byte := [wordByte w 0, wordByte w 1, wordByte w 2, wordByte w 3]

/-- R5: `words(B)[i] = pack4(B[4i], B[4i+1], B[4i+2], B[4i+3])` for the first `n` words of a byte string. -/
def wordsOf (n : Nat) (bytes : List Byte) : Vector Word n :=
  Vector.ofFn fun i =>
    pack4 (bytes.getD (4 * i.val) 0) (bytes.getD (4 * i.val + 1) 0) (bytes.getD (4 * i.val + 2) 0)
      (bytes.getD (4 * i.val + 3) 0)

/-- R6: `lo(c) = c[31:0]`. -/
def lo (c : U64) : Word := BitVec.extractLsb' 0 32 c

/-- R6: `hi(c) = c[63:32]`. -/
def hi (c : U64) : Word := BitVec.extractLsb' 32 32 c

/-- R6, R47: `{h, l} = 2^32 * h + l`. -/
def joinCtr (h l : Word) : U64 := h ++ l

/-- R47: the operand words of format K in arrival order: `K0..K7`, `N0..N2`, `CL`, `CH`. -/
def operandsK (key : Key) (nonce : Nonce) (ctr : U64) : Opw :=
  #v[key[0], key[1], key[2], key[3], key[4], key[5], key[6], key[7],
    nonce[0], nonce[1], nonce[2], lo ctr, hi ctr]

/-- The status of a response (R55). Values 4 to 15 are never produced. -/
inductive Status where
  | ok
  | illegal
  | noInit
  | exhausted
deriving DecidableEq, Repr

/-- R55: the status codes. -/
def statusCode : Status → BitVec 4
  | .ok => 0
  | .illegal => 1
  | .noInit => 2
  | .exhausted => 3

/-- R55: `Rsp(opc, status)`: bits 31:16 zero, 15:8 the opcode echoed, 7:4 zero, 3:0 the status. -/
def rspWord (opc : BitVec 8) (st : Status) : Word := (0 : BitVec 16) ++ opc ++ (0 : BitVec 4) ++ statusCode st

end Sys2Proof.Machine
end

