-- ==== Sys2Proof/Machine/State.lean ====
section
/-! DEFINITION. The state of the engine (10_state) and of its environment on the channels (20_memory section 3), as
plain data; the reasons a step can stop; the state right after reset (R29). -/

namespace Sys2Proof.Machine

/-- The keystream buffer's byte space `KSB` (R31), the only addressable memory: the cells with a non-zero byte,
addresses strictly rising. A cell not listed reads 0, which is the buffer's reset content (R29). -/
abbrev Memory := List Host.Cell

/-- The canonical form: addresses strictly rising and below 64, no listed byte 0. -/
def Memory.wf : Memory → Bool
  | [] => true
  | [(a, b)] => decide (a < 64) && decide (b ≠ 0)
  | (a, b) :: (a', b') :: rest => decide (a < a') && decide (b ≠ 0) && Memory.wf ((a', b') :: rest)

/-- `MODE` (R21). The fourth value of the 2-bit field is never taken. -/
inductive Mode where
  /-- 0: no Cipher State exists. -/
  | uninit
  /-- 1: a Cipher State exists. -/
  | ready
  /-- 2: the exhaustion exception was taken. -/
  | fault
deriving DecidableEq, Repr

/-- R21: the value of the 2-bit field. -/
def Mode.code : Mode → BitVec 2
  | .uninit => 0
  | .ready => 1
  | .fault => 2

/-- Where the engine's one sequential process stands between two steps (R23, R24, R33, R53): the channel primitive it
will execute next, with the item it is offering where that primitive is an output. -/
inductive Seq where
  /-- `CmdRead` of a header at the top of MainLoop (in FAULT mode: MainLoop has ended, R105). -/
  | header
  /-- `CmdRead` of operand word `got` of the command whose opcode is in `OPC_L`. -/
  | operand (got : Nat)
  /-- XOR's loop with bytes still owed, at `DinRead` (R81). -/
  | din
  /-- `DoutWrite(b)` of the per-byte step (R81): `b` is on offer. -/
  | doutXor (b : Byte)
  /-- `DoutWrite` of BLOCK (R90): the bytes still to be put, the first of them on offer. -/
  | doutBlock (bytes : List Byte)
  /-- `RspWrite(w)`: `w` is on offer (R55). -/
  | rsp (w : Word)
deriving DecidableEq, Repr

/-- Every piece of state of the engine, then the environment's part. -/
structure State where
  /-- `KEY[0..7]` (R11). -/
  key : Key
  /-- `NONCE[0..2]` (R12). -/
  nonce : Nonce
  /-- `CTR`, the index of the next block to derive (R13). -/
  ctr : U64
  /-- `OVF` (R20). -/
  ovf : Bool
  /-- `KS[0..15]` = `KSB[0..63]` (R17, R31). -/
  ksb : Memory
  /-- `CUR` (R18). -/
  cur : BitVec 7
  /-- `MODE` (R21). -/
  mode : Mode
  /-- `OPC_L` (R24). -/
  opcL : BitVec 8
  /-- `OPW[0..12]` (R24). -/
  opw : Opw
  /-- `REM` (R24). -/
  rem : Word
  /-- The position of the sequencer and the item it offers (R23, R33). -/
  seq : Seq
  /-- Environment: the level of the `rst` input (R44, R120). -/
  rst : Bool
  /-- Environment: the words on offer on `cmd`, the next one first (R33). -/
  cmd : List Word
  /-- Environment: the bytes on offer on `din`, the next one first (R33). -/
  din : List Byte
  /-- Environment: the bytes transferred on `dout` so far, oldest first (R33). -/
  dout : List Byte
  /-- Environment: the words transferred on `rsp` so far, oldest first (R33). -/
  rsp : List Word
  /-- Environment: how many more `dout` bytes the host takes; `dout_ready` is 1 while it is not 0 (R44). -/
  doutTake : Nat
  /-- Environment: how many more responses the host takes; `rsp_ready` is 1 while it is not 0 (R44). -/
  rspTake : Nat
deriving DecidableEq, Repr

/-- Why a step stops with a fault. No instruction and no state a run reaches raises one: the spec's own exceptions
are taken as next states (R104). -/
inductive Fault where
  /-- Raised by the fetch of operand words (Machine/Fetch.lean) in a state whose position `operand got` does not fit
  the opcode in `OPC_L`: no run reaches such a state (R24, R53), and the spec gives it no behaviour. Safe: the model
  stops where there is no hardware state to go on from (log 7). -/
  | sequencer
deriving DecidableEq, Repr

/-- Why a step refuses. No meaning and no step of this model answers with it. -/
inductive Refusal where
  /-- An instruction without a meaning, by its mnemonic; raised by no arm of exec. Safe. -/
  | notModelled (mnemonic : String)
deriving DecidableEq, Repr

/-- R29: the state after reset, `CUR = 64`, `MODE = UNINIT`, everything else 0, the engine at the top of MainLoop with
nothing on offer. The environment's fields hold no register: nothing offered, nothing taken, `rst` low (log 3). -/
def State.reset : State where
  key := Vector.replicate 8 0
  nonce := Vector.replicate 3 0
  ctr := 0
  ovf := false
  ksb := []
  cur := 64
  mode := .uninit
  opcL := 0
  opw := Vector.replicate 13 0
  rem := 0
  seq := .header
  rst := false
  cmd := []
  din := []
  dout := []
  rsp := []
  doutTake := 0
  rspTake := 0

end Sys2Proof.Machine
end

