-- ==== Sys2Proof/Machine/Flags.lean ====
section
/-! DEFINITION. The one flag computation of the engine, the overflow detection of the 64-bit incrementer (R76), and the
levels the engine drives on its output ports (R25, R44), as views of the state. -/

namespace Sys2Proof.Machine

/-- R76: the incremented counter, and whether the 64-bit counter has wrapped. The low word first; on overflow to zero
the high word; if that overflows to zero too, the wrap. -/
def inc64 (c : U64) : U64 × Bool :=
  let l := add32 (lo c) 1
  if l = 0 then
    let h := add32 (hi c) 1
    (joinCtr h l, decide (h = 0))
  else (joinCtr (hi c) l, false)

/-- R25: output `fault`. -/
def faultOut (s : State) : Bool := decide (s.mode = .fault)

/-- R25: output `ovf`. -/
def ovfOut (s : State) : Bool := s.ovf

/-- R44: output `cmd_ready`: the engine is in `CmdRead`. It is 0 in FAULT mode (R105) and under reset (R120). -/
def cmdReady (s : State) : Bool :=
  !s.rst && !faultOut s &&
    match s.seq with
    | .header => true
    | .operand _ => true
    | .din => false
    | .doutXor _ => false
    | .doutBlock _ => false
    | .rsp _ => false

/-- R44: output `din_ready`: the engine is in `DinRead`. -/
def dinReady (s : State) : Bool :=
  !s.rst &&
    match s.seq with
    | .din => true
    | .header => false
    | .operand _ => false
    | .doutXor _ => false
    | .doutBlock _ => false
    | .rsp _ => false

/-- R44: `dout_data` while `dout_valid` is 1, none while it is 0. -/
def doutOffer (s : State) : Option Byte :=
  if s.rst then none
  else
    match s.seq with
    | .doutXor b => some b
    | .doutBlock bytes => bytes.head?
    | .header => none
    | .operand _ => none
    | .din => none
    | .rsp _ => none

/-- R44: output `dout_valid`. -/
def doutValid (s : State) : Bool := (doutOffer s).isSome

/-- R44: `rsp_data` while `rsp_valid` is 1, none while it is 0. -/
def rspOffer (s : State) : Option Word :=
  if s.rst then none
  else
    match s.seq with
    | .rsp w => some w
    | .header => none
    | .operand _ => none
    | .din => none
    | .doutXor _ => none
    | .doutBlock _ => none

/-- R44: output `rsp_valid`. -/
def rspValid (s : State) : Bool := (rspOffer s).isSome

end Sys2Proof.Machine
end

