-- ==== Sys2Proof/Machine/Ops.lean ====
section
/-! DEFINITION. The shared operations: the memory primitives on `KSB` (R31), the output primitives of the channels
(R33), the writes of `CTR` (R61, R76), latching a command (R53), taking the exhaustion exception (R104), reset (R120),
and the moves the host has (R133). -/

namespace Sys2Proof.Machine

/-! ### The keystream buffer as memory (R31) -/

/-- The byte of a cell list at a key: 0 where none is listed. -/
def cellRead (k : Nat) : Memory → Byte
  | [] => 0
  | (a, b) :: rest => if a = k then b else cellRead k rest

/-- Put a byte at a key, keeping the canonical form: a 0 is not listed. -/
def cellWrite (k : Nat) (v : Byte) : Memory → Memory
  | [] => if v = 0 then [] else [(k, v)]
  | (a, b) :: rest =>
    if k < a then (if v = 0 then (a, b) :: rest else (k, v) :: (a, b) :: rest)
    else if k = a then (if v = 0 then rest else (k, v) :: rest)
    else (a, b) :: cellWrite k v rest

/-- R31: `MemRead(a, 1) = KSB[a]`. The address has 6 bits: the space is 0..63 and no other address can be given. -/
def memRead1 (m : Memory) (a : BitVec 6) : Byte := cellRead a.toNat m

/-- R31: `MemRead(a, 4)`, little-endian; `KS[a / 4]` for `a` a multiple of 4. -/
def memRead4 (m : Memory) (a : BitVec 6) : Word :=
  pack4 (memRead1 m a) (memRead1 m (a + 1)) (memRead1 m (a + 2)) (memRead1 m (a + 3))

/-- R31: `MemWrite(a, 4, v)`, little-endian. -/
def memWrite4 (m : Memory) (a : BitVec 6) (v : Word) : Memory :=
  cellWrite (a + 3).toNat (wordByte v 3) (cellWrite (a + 2).toNat (wordByte v 2)
    (cellWrite (a + 1).toNat (wordByte v 1) (cellWrite a.toNat (wordByte v 0) m)))

/-- R17: the word view `KS[i]` of the buffer. -/
def ksWord (s : State) (i : Fin 16) : Word := memRead4 s.ksb (BitVec.ofNat 6 (4 * i.val))

/-- R77: `MemWrite(4 * i, 4, z[i])` for the words of a list, the first at index `i`. -/
def storeWords : Nat → List Word → Memory → Memory
  | _, [], m => m
  | i, w :: ws, m => storeWords (i + 1) ws (memWrite4 m (BitVec.ofNat 6 (4 * i)) w)

/-- R77: a whole block into `KS`. -/
def storeBlock (z : Block) (m : Memory) : Memory := storeWords 0 z.toList m

/-! ### Channel primitives (R33) -/

/-- The engine holds in a primitive: nothing changes but its position (R33). -/
def hold (q : Seq) (s : State) : State := { s with seq := q }

/-- One transfer on `din`: the bytes behind the one taken stay on offer. -/
def dinTake (rest : List Byte) (s : State) : State := { s with din := rest }

/-- One transfer on `dout`. -/
def doutPut (b : Byte) (s : State) : State :=
  { s with dout := s.dout ++ [b], doutTake := s.doutTake - 1 }

/-- `RspWrite(w)`, the last act of every command: a transfer if the host takes it, and the engine is at the top of
MainLoop again; else the engine holds with `w` on offer. -/
def rspWrite (w : Word) (s : State) : State :=
  if s.rspTake = 0 then hold (.rsp w) s
  else { s with rsp := s.rsp ++ [w], rspTake := s.rspTake - 1, seq := .header }

/-! ### The counter (R61, R76) -/

/-- R61: `SetCounter(c)`: `CTR <- c` and nothing else. -/
def setCounter (c : U64) (s : State) : State := { s with ctr := c }

/-- R76: `Inc64()`: `OVF` is only ever set to 1 by it. -/
def incCounter (s : State) : State :=
  let r := inc64 s.ctr
  setCounter r.1 { s with ovf := s.ovf || r.2 }

/-! ### Taking a command (R53) -/

/-- R53: `OPC_L` and `OPW[0..12]` as a format K command leaves them. -/
def latchK (opc : BitVec 8) (key : Key) (nonce : Nonce) (ctr : U64) (s : State) : State :=
  { s with opcL := opc, opw := operandsK key nonce ctr }

/-- R53: `OPC_L` and `OPW[0]` as a format L command leaves them; the other operand words keep theirs. -/
def latchL (opc : BitVec 8) (len : Word) (s : State) : State :=
  { s with opcL := opc, opw := s.opw.set 0 len }

/-- R105, R108: in FAULT mode no command is taken; the engine holds with all its state kept. Else the command runs. -/
def runCommand (body : State → State) (s : State) : Host.Outcome State Fault Refusal :=
  if s.mode = .fault then .next s else .next (body s)

/-! ### Exceptions -/

/-- R104: the entry of `Exhausted`: MODE <- FAULT and the response with the opcode in `OPC_L`; nothing is saved and
nothing else changes. There is no return from it: only reset leaves FAULT mode (R105). -/
def raiseExhausted (s : State) : State :=
  rspWrite (rspWord s.opcL .exhausted) { s with mode := .fault }

/-- R51, R97: an illegal header: `OPC_L` latches its bits 7:0, and the response says ILLEGAL. -/
def refuseIllegal (h : Word) (s : State) : State :=
  rspWrite (rspWord (BitVec.extractLsb' 0 8 h) .illegal) { s with opcL := BitVec.extractLsb' 0 8 h }

/-! ### Reset (R120, R121) -/

/-- R120: one edge with `rst = 1`: every register of the engine takes its reset value and what it was offering is
withdrawn; no transfer happens, and what the host holds or has taken stays the host's (R121). -/
def applyReset (s : State) : State :=
  { State.reset with
    rst := s.rst, cmd := s.cmd, din := s.din, dout := s.dout, rsp := s.rsp,
    doutTake := s.doutTake, rspTake := s.rspTake }

/-! ### The host's moves (R133) -/

/-- The host offers further words on `cmd`. -/
def hostOfferCmd (ws : List Word) (s : State) : State := { s with cmd := s.cmd ++ ws }

/-- The host offers further bytes on `din`. -/
def hostOfferDin (bs : List Byte) (s : State) : State := { s with din := s.din ++ bs }

/-- The host is ready for `n` further bytes on `dout`. -/
def hostTakeDout (n : Nat) (s : State) : State := { s with doutTake := s.doutTake + n }

/-- The host is ready for `n` further responses. -/
def hostTakeRsp (n : Nat) (s : State) : State := { s with rspTake := s.rspTake + n }

/-- The host drives `rst`. -/
def hostSetRst (level : Bool) (s : State) : State := { s with rst := level }

end Sys2Proof.Machine
end

