-- ==== Sys2Proof/Machine/Permutation.lean ====
section
/-! DEFINITION. The block permutation (41_permutation): `QR`, `COLUMN`, `DIAGONAL`, `DROUND`, `PERMUTE`, as functions on
the working block. The hidden scratch `X` and `DR` (R22) is the block they pass on and the recursion index (log 5). -/

namespace Sys2Proof.Machine

/-- R65: the quarter-round, its eight assignments in the order of the rule, each seeing those before it. -/
def qr (a b c d : Fin 16) (x : Block) : Block :=
  let x := x.set a (add32 x[a] x[b])
  let x := x.set d (rotl (x[d] ^^^ x[a]) 16)
  let x := x.set c (add32 x[c] x[d])
  let x := x.set b (rotl (x[b] ^^^ x[c]) 12)
  let x := x.set a (add32 x[a] x[b])
  let x := x.set d (rotl (x[d] ^^^ x[a]) 8)
  let x := x.set c (add32 x[c] x[d])
  x.set b (rotl (x[b] ^^^ x[c]) 7)

/-- R66: the column pass. -/
def column (x : Block) : Block :=
  qr 3 7 11 15 (qr 2 6 10 14 (qr 1 5 9 13 (qr 0 4 8 12 x)))

/-- R67: the diagonal pass. -/
def diagonal (x : Block) : Block :=
  qr 3 4 9 14 (qr 2 7 8 13 (qr 1 6 11 12 (qr 0 5 10 15 x)))

/-- R68: one double round, columns first. -/
def dround (x : Block) : Block := diagonal (column x)

/-- `n` double rounds. -/
def drounds : Nat → Block → Block
  | 0, x => x
  | n + 1, x => drounds n (dround x)

/-- R69: `PERMUTE()`, ten double rounds. -/
def permute (x : Block) : Block := drounds Config.doubleRounds x

end Sys2Proof.Machine
end

