-- ==== Sys2Proof/Machine/Derivation.lean ====
section
/-! DEFINITION. Keystream block derivation (42_block_derivation): the hardwired constants, the input matrix, `BlockFn`,
`BlockBytes` and `KSGEN`. -/

namespace Sys2Proof.Machine

/-- R14: the hardwired constants `C[0..3]`, the characters "expand 32-byte k" by R5. -/
def constC : Vector Word 4 := #v[0x61707865, 0x3320646E, 0x79622D32, 0x6B206574]

/-- R75, R15: `Matrix(k, n, c)`. Word 13 is a sum modulo 2^32, its carry dropped. -/
def matrix (k : Key) (n : Nonce) (c : U64) : Block :=
  #v[constC[0], constC[1], constC[2], constC[3],
    k[0], k[1], k[2], k[3],
    k[4], k[5], k[6], k[7],
    lo c, add32 n[0] (hi c), n[1], n[2]]

/-- R15: the view `S(0..15)`, `internal_state`. -/
def viewS (s : State) : Block := matrix s.key s.nonce s.ctr

/-- R75: `BlockFn(k, n, c)`: the permuted copy plus the original, word by word modulo 2^32. -/
def blockFn (k : Key) (n : Nonce) (c : U64) : Block :=
  Vector.zipWith add32 (permute (matrix k n c)) (matrix k n c)

/-- R78: a block as 64 bytes, each word through `unpack4`, in index order. -/
def bytesOf (z : Block) : List Byte := (z.toList.map unpack4).flatten

/-- R78: `BlockBytes(k, n, c)`. -/
def blockBytes (k : Key) (n : Nonce) (c : U64) : List Byte := bytesOf (blockFn k n c)

/-- R77, R79: `KSGEN()`. None where it raises `Exhausted`, before any state is changed; else the block of the counter
value before the increment is in `KS`, and the counter has advanced. It does not write `CUR`. -/
def ksgen (s : State) : Option State :=
  if s.ovf then none
  else some (incCounter { s with ksb := storeBlock (blockFn s.key s.nonce s.ctr) s.ksb })

end Sys2Proof.Machine
end

