-- ==== Sys2Proof/Machine/Block.lean ====
section
/-! DEFINITION. `BLOCK` (44_block). -/

namespace Sys2Proof.Machine

/-- R90: `DoutWrite` of the bytes in order, then the response; the engine holds at the first byte the host does not
take, and is taken up there. -/
def blockEmit : List Byte → State → State
  | [], s => rspWrite (rspWord 0x03 .ok) s
  | b :: bs, s =>
    if s.doutTake = 0 then hold (.doutBlock (b :: bs)) s else blockEmit bs (doutPut b s)

/-- R90: `ExecBlock()`, the operands latched (R53). No register of the Cipher State is read or written. -/
def blockBody (key : Key) (nonce : Nonce) (ctr : U64) (s : State) : State :=
  blockEmit (blockBytes key nonce ctr) (latchK 0x03 key nonce ctr s)

/-- The meaning of `BLOCK`: R90 in UNINIT and READY mode, not taken in FAULT mode (R105, R108). -/
def execBlock (key : Key) (nonce : Nonce) (ctr : U64) (s : State) : Host.Outcome State Fault Refusal :=
  runCommand (blockBody key nonce ctr) s

end Sys2Proof.Machine
end

