-- ==== Sys2Proof/Syntax.lean ====
section
/-! DEFINITION. The command set CC20-CMD version 1 (R49): the three rows of spec/opcode_table.json. -/

namespace Sys2Proof

/-- One constructor per row of the opcode table. The operands are those of R47 and R48: the key and nonce words as
they travel, the counter put together from `CH` and `CL`, the byte count. An illegal header is no command of this
type: the decoder reports it by name (R51). -/
inductive Instr where
  /-- `INIT` (R60), format K. -/
  | init (key : Key) (nonce : Nonce) (ctr : U64)
  /-- `XOR` (R80), format L. -/
  | xor (len : Word)
  /-- `BLOCK` (R90), format K. -/
  | block (key : Key) (nonce : Nonce) (ctr : U64)
deriving DecidableEq, Repr

end Sys2Proof
end

