-- ==== Sys2Proof/WellFormed.lean ====
section
/-! DEFINITION. Which commands and which assembler lines are well formed. A command's operands are fixed-size by
type, so that a key or nonce of another size "cannot be expressed" (R52, R99), and "every 32-bit value is legal in
every operand word" (R47, R48): every `Instr` is well formed. The sizes are the duty of the software that builds
the command words (R125): the assembler line of R56 and R57, where a wrong size can be written, is checked here. -/

namespace Sys2Proof

/-- R47, R48: no operand value is reserved, and R52: no wrong size can be expressed. -/
def Instr.wellFormed : Instr → Bool
  | .init _ _ _ => true
  | .xor _ => true
  | .block _ _ _ => true

/-- A line of the assembler of R56 and R57, as data (its text is not parsed, log 18): byte strings in index order,
numerals as numbers. -/
inductive AsmLine where
  | init (key nonce : List Byte) (ctr : Nat)
  | xor (len : Nat)
  | block (key nonce : List Byte) (ctr : Nat)
  /-- `.din`: bytes the host puts on `din`, in order. -/
  | dinBytes (bytes : List Byte)
  /-- `.word`: a raw word on `cmd`. -/
  | rawWord (w : Nat)
  /-- `ENCRYPT len=n`. -/
  | encrypt (len : Nat)
  /-- `DECRYPT len=n`. -/
  | decrypt (len : Nat)
  /-- `XORL len=n`, `n` up to `2^70`. -/
  | xorl (len : Nat)
  | nop
deriving DecidableEq, Repr

/-- R99, R125: a key is exactly 32 bytes. -/
def keySizeOk (key : List Byte) : Bool := key.length == Config.keyBytes

/-- R99, R125: a nonce is exactly 12 bytes. -/
def nonceSizeOk (nonce : List Byte) : Bool := nonce.length == Config.nonceBytes

/-- R56: the size and range of every operand of a line. -/
def AsmLine.wellFormed : AsmLine → Bool
  | .init key nonce ctr => keySizeOk key && nonceSizeOk nonce && decide (ctr < 2 ^ 64)
  | .xor len => decide (len < 2 ^ 32)
  | .block key nonce ctr => keySizeOk key && nonceSizeOk nonce && decide (ctr < 2 ^ 64)
  | .dinBytes _ => true
  | .rawWord w => decide (w < 2 ^ 32)
  | .encrypt len => decide (len < 2 ^ 32)
  | .decrypt len => decide (len < 2 ^ 32)
  | .xorl len => decide (len ≤ 2 ^ 70)
  | .nop => true

end Sys2Proof
end

