-- ==== Sys2Proof/Decode.lean ====
section
/-! DEFINITION. The decoder of 30_encoding, total on any sequence of command words, and the encoder after it, written
from the same tables; then the assembler of R56 and R57 over the encoder. A command word is one 32-bit item of the
`cmd` channel: there is no byte order on it (R32). -/

namespace Sys2Proof

/-- The opcode a header selects (R49). -/
inductive Opcode where
  | init
  | xor
  | block
deriving DecidableEq, Repr

/-- R49: a header selects a command when all 32 of its bits equal the match value; every other value is illegal (R51). -/
def headerOpcode (h : Word) : Option Opcode :=
  if h = 0x00000001 then some .init
  else if h = 0x00000002 then some .xor
  else if h = 0x00000003 then some .block
  else none

/-- R49: the header word of an opcode. -/
def opcodeHeader : Opcode → Word
  | .init => 0x00000001
  | .xor => 0x00000002
  | .block => 0x00000003

/-- R49: `NOPS(OPC)`, the number of operand words. -/
def opcodeNops : Opcode → Nat
  | .init => 13
  | .xor => 1
  | .block => 13

/-- What the decoder reads at the front of a sequence of command words. -/
inductive Decoded where
  /-- A whole command and the words after it. -/
  | command (i : Instr) (rest : List Word)
  /-- No word at all. -/
  | noWord
  /-- The first word is an illegal header (R51): a command of one word. -/
  | illegalHeader (h : Word)
  /-- A legal header with fewer operand words behind it than its format has (R52). -/
  | operandsMissing
deriving DecidableEq, Repr

/-- R45, R47: the operands of format K off the front of the words behind a header. -/
def takeK : List Word → Option (Key × Nonce × U64 × List Word)
  | k0 :: k1 :: k2 :: k3 :: k4 :: k5 :: k6 :: k7 :: n0 :: n1 :: n2 :: cl :: ch :: rest =>
    some (#v[k0, k1, k2, k3, k4, k5, k6, k7], #v[n0, n1, n2], Machine.joinCtr ch cl, rest)
  | _ => none

/-- R45, R48: the operand of format L off the front of the words behind a header. -/
def takeL : List Word → Option (Word × List Word)
  | len :: rest => some (len, rest)
  | [] => none

/-- R45, R49, R51, R53: the command at the front of a sequence of words. -/
def decode : List Word → Decoded
  | [] => .noWord
  | h :: ops =>
    match headerOpcode h with
    | none => .illegalHeader h
    | some .init =>
      match takeK ops with
      | some (k, n, c, rest) => .command (.init k n c) rest
      | none => .operandsMissing
    | some .xor =>
      match takeL ops with
      | some (len, rest) => .command (.xor len) rest
      | none => .operandsMissing
    | some .block =>
      match takeK ops with
      | some (k, n, c, rest) => .command (.block k n c) rest
      | none => .operandsMissing

/-- R45, R47, R48, R49: the words of a command, header first. -/
def encode : Instr → List Word
  | .init k n c => opcodeHeader .init :: (Machine.operandsK k n c).toList
  | .xor len => [opcodeHeader .xor, len]
  | .block k n c => opcodeHeader .block :: (Machine.operandsK k n c).toList

/-- `n` words off the low end of a number of which `nbits` bits count; the bits above them are 0. -/
def wordsFrom : Nat → Nat → Nat → List Word
  | 0, _, _ => []
  | n + 1, nbits, w => BitVec.ofNat 32 (w % 2 ^ min nbits 32) :: wordsFrom n (nbits - 32) (w / 2 ^ 32)

/-- The words of a table row: bit 0 of `w` is bit 0 of the first word, a later word's bits count on from it; the bits
from `nbits` on are 0, up to the words of the longest command. -/
def tableWords (nbits w : Nat) : List Word := wordsFrom Config.commandWords nbits w

/-- The instruction the decoder reads from the words of a table row. -/
def decodeTableWord (nbits w : Nat) : Option Instr :=
  match decode (tableWords nbits w) with
  | .command i _ => some i
  | .noWord => none
  | .illegalHeader _ => none
  | .operandsMissing => none

/-- What a line of the assembler gives the host: words for `cmd` and bytes for `din` (R56). -/
abbrev Assembled := List Word × List Byte

/-- R56, R57: the words and bytes of one line; none for a line that is not well formed (R125: rejected, never cut or
padded). `XORL len=n` is `q` times the longest `XOR` and one of the rest, `n = q * (2^32 - 1) + r`. -/
def assembleLine (l : AsmLine) : Option Assembled :=
  if l.wellFormed then
    match l with
    | .init key nonce ctr =>
      some (encode (.init (Machine.wordsOf 8 key) (Machine.wordsOf 3 nonce) (BitVec.ofNat 64 ctr)), [])
    | .xor len => some (encode (.xor (BitVec.ofNat 32 len)), [])
    | .block key nonce ctr =>
      some (encode (.block (Machine.wordsOf 8 key) (Machine.wordsOf 3 nonce) (BitVec.ofNat 64 ctr)), [])
    | .dinBytes bytes => some ([], bytes)
    | .rawWord w => some ([BitVec.ofNat 32 w], [])
    | .encrypt len => some (encode (.xor (BitVec.ofNat 32 len)), [])
    | .decrypt len => some (encode (.xor (BitVec.ofNat 32 len)), [])
    | .xorl len =>
      some ((List.replicate (len / (2 ^ 32 - 1)) (encode (.xor 0xFFFFFFFF))).flatten
        ++ encode (.xor (BitVec.ofNat 32 (len % (2 ^ 32 - 1)))), [])
    | .nop => some (encode (.xor 0), [])
  else none

/-- R56: "One line assembles to the words of rule R45 in order": a program is its lines' words and bytes in order. -/
def assemble : List AsmLine → Option Assembled
  | [] => some ([], [])
  | l :: ls =>
    match assembleLine l, assemble ls with
    | some (ws, bs), some (ws', bs') => some (ws ++ ws', bs ++ bs')
    | _, _ => none

end Sys2Proof
end

