-- ==== Sys2Proof/Machine/Stream.lean ====
section
/-! DEFINITION. `XOR` (43_stream_xor): the per-byte step and the loop over it, which stops where a channel primitive
holds and can be taken up again there. -/

namespace Sys2Proof.Machine

/-- R81: `CUR <- 0`, after a derivation. -/
def cursorReset (s : State) : State := { s with cur := 0 }

/-- R81: the first part of `ByteStep()`: derive if the buffer is used up, before a byte is taken. None where the
derivation raises `Exhausted`; then `CUR` keeps its value. -/
def refill (s : State) : Option State :=
  if Config.blockBytes ≤ s.cur.toNat then (ksgen s).map cursorReset else some s

/-- R81: the keystream byte `MemRead(CUR, 1)`; `CUR` is below 64 at the read. -/
def keystreamByte (s : State) : Byte := memRead1 s.ksb (s.cur.setWidth 6)

/-- The end of the per-byte step (R81) and of the loop's turn (R80): `CUR <- CUR + 1`, `REM <- REM - 1`. -/
def byteDone (s : State) : State := { s with cur := s.cur + 1, rem := s.rem - 1 }

/-- R80: the loop of `ExecXor()` for `n` bytes still owed (`n` is `REM`), to its end, to the exception, or to the
primitive in which the engine holds. -/
def xorLoop : Nat → State → State
  | 0, s => rspWrite (rspWord 0x02 .ok) s
  | n + 1, s =>
    match refill s with
    | none => raiseExhausted s
    | some t =>
      match t.din with
      | [] => hold .din t
      | b :: bs =>
        if t.doutTake = 0 then hold (.doutXor (b ^^^ keystreamByte t)) (dinTake bs t)
        else xorLoop n (byteDone (doutPut (b ^^^ keystreamByte t) (dinTake bs t)))

/-- R80: `ExecXor()`, the operand latched (R53). In UNINIT mode the command is refused and nothing else happens. -/
def xorBody (len : Word) (s : State) : State :=
  let s := latchL 0x02 len s
  if s.mode = .uninit then rspWrite (rspWord 0x02 .noInit) s
  else xorLoop len.toNat { s with rem := len }

/-- The meaning of `XOR`: R80 in UNINIT and READY mode, not taken in FAULT mode (R105, R108). -/
def execXor (len : Word) (s : State) : Host.Outcome State Fault Refusal :=
  runCommand (xorBody len) s

/-- An `XOR` in progress, taken up at the top of its loop. -/
def xorResume (s : State) : State := xorLoop s.rem.toNat s

/-- An `XOR` in progress, taken up in `DoutWrite(b)`: the transfer if the host takes it, and the loop goes on. -/
def xorResumeDout (b : Byte) (s : State) : State :=
  if s.doutTake = 0 then s else xorResume (byteDone (doutPut b s))

end Sys2Proof.Machine
end

