-- ==== Sys2Proof/Machine/Fetch.lean ====
section
/-! DEFINITION. MainLoop (R53) between its commands: taking a command's words off `cmd`, as many as the host offers, and
taking up a command that was holding in a data or response primitive. -/

namespace Sys2Proof.Machine

/-- What MainLoop finds when the engine is let run. -/
inductive Fetched where
  /-- A whole command: the command, and the state with its words taken. -/
  | run (i : Instr) (s : State)
  /-- No command to run in this step: the state the engine holds in or has come to. -/
  | idle (s : State)
  /-- A command is in progress past its operand words. -/
  | busy
  /-- A position no run reaches. -/
  | stuck (f : Fault)
deriving DecidableEq, Repr

/-- The words of the command in progress that the engine has taken already: the header from `OPC_L` (a legal header has
`RSV = 0`, R46) and `OPW[0 .. got-1]`. -/
def latchedWords (got : Nat) (s : State) : List Word := s.opcL.setWidth 32 :: s.opw.toList.take got

/-- R24, R53: an operand word is expected only behind a legal opcode and below its `NOPS`. -/
def operandPosition (got : Nat) (s : State) : Bool :=
  match headerOpcode (s.opcL.setWidth 32) with
  | some o => decide (got < opcodeNops o)
  | none => false

/-- R53: the header and operand words come so far, latched; the engine waits for the next operand word. -/
def latchPartial (h : Word) (ops : List Word) (s : State) : State :=
  { s with
    opcL := BitVec.extractLsb' 0 8 h
    opw := Vector.ofFn fun i => ops.getD i.val s.opw[i]
    seq := .operand ops.length
    cmd := [] }

/-- R53: the words taken already and the words on offer, read as a command. -/
def fetchFrom (taken : List Word) (s : State) : Fetched :=
  match decode (taken ++ s.cmd) with
  | .command i rest => .run i { s with cmd := rest, seq := .header }
  | .noWord => .idle s
  | .illegalHeader h => .idle (refuseIllegal h { s with cmd := s.cmd.tail, seq := .header })
  | .operandsMissing =>
    match taken ++ s.cmd with
    | [] => .idle s
    | h :: ops => .idle (latchPartial h ops s)

/-- R53: where MainLoop is. In FAULT mode it has ended and takes no word (R105). -/
def fetch (s : State) : Fetched :=
  match s.seq with
  | .header => if s.mode = .fault then .idle s else fetchFrom [] s
  | .operand got =>
    if s.mode = .fault then .idle s
    else if operandPosition got s then fetchFrom (latchedWords got s) s
    else .stuck .sequencer
  | .din => .busy
  | .doutXor _ => .busy
  | .doutBlock _ => .busy
  | .rsp _ => .busy

/-- R33: the command in progress, taken up in the primitive it was holding in. -/
def resume (s : State) : State :=
  match s.seq with
  | .din => xorResume s
  | .doutXor b => xorResumeDout b s
  | .doutBlock bytes => blockEmit bytes s
  | .rsp w => rspWrite w s
  | .header => s
  | .operand _ => s

end Sys2Proof.Machine
end

