-- ==== Sys2Proof/Machine/Init.lean ====
section
/-! DEFINITION. `INIT` (40_init). -/

namespace Sys2Proof.Machine

/-- R60: `ExecInit()`, the operands latched (R53). `KS` is not written. -/
def initBody (key : Key) (nonce : Nonce) (ctr : U64) (s : State) : State :=
  let s := latchK 0x01 key nonce ctr s
  let s := setCounter ctr { s with key := key, nonce := nonce }
  rspWrite (rspWord 0x01 .ok) { s with ovf := false, cur := 64, mode := .ready }

/-- The meaning of `INIT`: R60 in UNINIT and READY mode, not taken in FAULT mode (R105, R108). -/
def execInit (key : Key) (nonce : Nonce) (ctr : U64) (s : State) : Host.Outcome State Fault Refusal :=
  runCommand (initBody key nonce ctr) s

end Sys2Proof.Machine
end

