-- ==== Sys2Proof/Machine/Dispatch.lean ====
section
/-! DEFINITION. The meaning of every command of the opcode table (R49). -/

namespace Sys2Proof.Machine

def exec (i : Instr) (s : State) : Host.Outcome State Fault Refusal :=
  match i with
  | .init key nonce ctr => Sys2Proof.Machine.execInit key nonce ctr s
  | .xor len => Sys2Proof.Machine.execXor len s
  | .block key nonce ctr => Sys2Proof.Machine.execBlock key nonce ctr s

end Sys2Proof.Machine
end

