-- ==== Sys2Proof/Machine/Step.lean ====
section
/-! DEFINITION. One step: a reset edge, or the engine run from where it stands to its next hold or to the end of one
command (log 2). -/

namespace Sys2Proof.Machine

/-- R53, R102, R120: reset overrides everything; else a command in progress is taken up, or the next command's words
are taken and the command runs. A step in which the engine can only hold leaves the state as it is (R33). -/
def step (s : State) : Host.Outcome State Fault Refusal :=
  if s.rst then .next (applyReset s)
  else
    match fetch s with
    | .run i t => exec i t
    | .idle t => .next t
    | .busy => .next (resume s)
    | .stuck f => .fault f

/-- The words of a table row offered on `cmd` before whatever the host has on offer, the engine at the top of MainLoop
and `rst` low, so that the next step takes and runs that command (log 11). -/
def State.withFetchWord (s : State) (nbits w : Nat) : State :=
  { s with cmd := tableWords nbits w ++ s.cmd, seq := .header, rst := false }

end Sys2Proof.Machine
end

