-- ==== Sys2Proof/Safety.lean ====
section
/-! DEFINITION. What a reachable and a finished state is, in the terms claims use: the invariant of the engine
(R16, R18, R19, R20, R21, R24, R31, R105), the end of a run (R134), and the quantities of R87 and R86 by which a
stream is counted. -/

namespace Sys2Proof.Safety

open Sys2Proof.Machine

/-- The sequencer's position fits the mode, the opcode and the registers its primitive uses (R24, R53, R80, R90, R104). -/
def SeqFits (s : State) : Prop :=
  match s.seq with
  | .header => True
  | .operand got => s.mode ≠ .fault ∧ operandPosition got s = true
  | .din => s.mode = .ready ∧ s.opcL = 0x02 ∧ s.rem ≠ 0 ∧ s.cur < 64
  | .doutXor _ => s.mode = .ready ∧ s.opcL = 0x02 ∧ s.rem ≠ 0 ∧ s.cur < 64
  | .doutBlock bytes => s.mode ≠ .fault ∧ s.opcL = 0x03 ∧ bytes ≠ [] ∧ bytes.length ≤ 64
  | .rsp w => ∃ st, w = rspWord s.opcL st ∧ (st = .exhausted ↔ s.mode = .fault)

/-- No Cipher State exists: the registers are those of reset (R21, R29), so that "the zero key can never be used". -/
def CipherReset (s : State) : Prop :=
  s.key = State.reset.key ∧ s.nonce = State.reset.nonce ∧ s.ctr = 0 ∧ s.ovf = false ∧ s.ksb = [] ∧ s.cur = 64

/-- FAULT mode: the counter has wrapped, the last block is used up, and the engine is offering its last response or
holds for ever (R104, R105). -/
def FaultShape (s : State) : Prop :=
  s.ovf = true ∧ s.cur = 64 ∧ (s.seq = .header ∨ ∃ w, s.seq = .rsp w)

/-- The invariant of every state a run reaches. -/
structure Inv (s : State) : Prop where
  /-- The buffer is in its canonical form (R31). -/
  memory : Memory.wf s.ksb = true
  /-- R18: the cursor is in 0..64. -/
  cursor : s.cur ≤ 64
  /-- R13, R20: a wrapped counter is 0. -/
  wrapped : s.ovf = true → s.ctr = 0
  /-- R19: an unconsumed buffer holds the block whose index is one less than CTR. -/
  buffer : s.mode = .ready → s.cur < 64 → ∀ i : Fin 16, ksWord s i = (blockFn s.key s.nonce (s.ctr - 1))[i]
  /-- R21: what UNINIT means. -/
  uninit : s.mode = .uninit → CipherReset s
  /-- R104, R105: what FAULT means. -/
  faulted : s.mode = .fault → FaultShape s
  /-- R24: where the sequencer can be. -/
  sequencer : SeqFits s

/-- R134: quiescent and final: holding in the `CmdRead` at the top of MainLoop, which with `rst` high the engine does not
do (R120); every response taken, no further word on offer. FAULT is never final. -/
def Final (s : State) : Prop := s.rst = false ∧ s.mode ≠ .fault ∧ s.seq = .header ∧ s.cmd = []

/-- R87: `a`, the bytes left in the buffer. -/
def buffered (s : State) : Nat := 64 - s.cur.toNat

/-- R87: `B`, the blocks still derivable. -/
def derivable (s : State) : Nat := if s.ovf then 0 else 2 ^ 64 - s.ctr.toNat

/-- `d` block derivations one after the other (R77); none where one of them raises. -/
def derivations : Nat → State → Option State
  | 0, s => some s
  | d + 1, s => (ksgen s).bind (derivations d)

/-- R87: `d = ceil((n - a) / 64)`, the derivations `n` bytes need. -/
def needed (s : State) (n : Nat) : Nat := (n - buffered s + 63) / 64

/-- R87: how many of `n` bytes an XOR moves before its end or the exception. -/
def moved (s : State) (n : Nat) : Nat := min n (buffered s + 64 * derivable s)

/-- R81, R86: the keystream byte the `i`-th byte from here is XORed with: the rest of the buffered block, then the bytes
of the blocks from index CTR on. -/
def streamByte (s : State) (i : Nat) : Byte :=
  if i < buffered s then memRead1 s.ksb (BitVec.ofNat 6 (s.cur.toNat + i))
  else
    (blockBytes s.key s.nonce (s.ctr + BitVec.ofNat 64 ((i - buffered s) / 64))).getD ((i - buffered s) % 64) 0

/-- The position of the sequencer without the items it offers (R23). -/
inductive Place where
  | header
  | operand (got : Nat)
  | din
  | doutXor
  | doutBlock (left : Nat)
  | rsp (w : Word)
deriving DecidableEq, Repr

/-- The place of a position: a data byte on offer is left out, a response word is not. -/
def placeOf : Seq → Place
  | .header => .header
  | .operand got => .operand got
  | .din => .din
  | .doutXor _ => .doutXor
  | .doutBlock bytes => .doutBlock bytes.length
  | .rsp w => .rsp w

end Sys2Proof.Safety
end

