-- ==== Sys2Proof/Certificates/Slice0/Obligations.lean ====
section
/-! DEFINITION. The statements about the model, from the numbered rules of spec/. A next state is written out in full
wherever a rule gives all of it; where a statement says what an instruction leaves alone, it names every field. -/

open Sys2Proof Sys2Proof.Machine Sys2Proof.Safety

/-! ### Encoding (30_encoding) -/

/-- Every command's words decode to it, whatever follows them, with every operand at every value (R45, R47, R48, R49). -/
def Obligations.DecodeOfEncode : Prop :=
  ∀ (i : Instr) (rest : List Word), i.wellFormed = true → decode (encode i ++ rest) = .command i rest

/-- The other direction: what decodes to a command starts with exactly that command's words. -/
def Obligations.EncodeOfDecode : Prop :=
  ∀ (ws : List Word) (i : Instr) (rest : List Word), decode ws = .command i rest → encode i ++ rest = ws

/-- R51: the illegal headers are every value but 1, 2 and 3. -/
def Obligations.IllegalHeadersExactly : Prop :=
  ∀ (h : Word) (ops : List Word),
    decode (h :: ops) = .illegalHeader h ↔ (h ≠ 0x00000001 ∧ h ≠ 0x00000002 ∧ h ≠ 0x00000003)

/-- R45: a legal header is followed by 13 operand words (format K) or 1 (format L), and by nothing less. -/
def Obligations.CommandLengths : Prop :=
  ∀ (h : Word) (ops : List Word),
    ((h = 0x00000001 ∨ h = 0x00000003) → (decode (h :: ops) = .operandsMissing ↔ ops.length < 13)) ∧
    (h = 0x00000002 → (decode (h :: ops) = .operandsMissing ↔ ops.length < 1)) ∧
    (∀ (i : Instr) (rest : List Word), decode (h :: ops) = .command i rest →
      ops.length = rest.length + (if h = 0x00000002 then 1 else 13))

/-- Sanity: the words of the examples of R60, R80 and R90 read as the spec reads them. -/
def Obligations.ExampleWordsDecode : Prop :=
  decode [0x00000001, 0x03020100, 0x07060504, 0x0b0a0908, 0x0f0e0d0c, 0x13121110, 0x17161514, 0x1b1a1918, 0x1f1e1d1c,
      0x09000000, 0x4a000000, 0x00000000, 0x00000001, 0x00000000]
    = .command (.init #v[0x03020100, 0x07060504, 0x0b0a0908, 0x0f0e0d0c, 0x13121110, 0x17161514, 0x1b1a1918, 0x1f1e1d1c]
        #v[0x09000000, 0x4a000000, 0x00000000] 1) [] ∧
  decode [0x00000002, 0x00000004] = .command (.xor 4) [] ∧
  decode [0x00000003, 0x03020100, 0x07060504, 0x0b0a0908, 0x0f0e0d0c, 0x13121110, 0x17161514, 0x1b1a1918, 0x1f1e1d1c,
      0x09000000, 0x4a000000, 0x00000000, 0x00000001, 0x00000000]
    = .command (.block #v[0x03020100, 0x07060504, 0x0b0a0908, 0x0f0e0d0c, 0x13121110, 0x17161514, 0x1b1a1918, 0x1f1e1d1c]
        #v[0x09000000, 0x4a000000, 0x00000000] 1) []

/-- R47: key byte `m` travels in bits `8*(m mod 4)+7 : 8*(m mod 4)` of command word `1 + (m div 4)`, nonce byte `m` in the
same bits of word `9 + (m div 4)`; for both commands of format K, INIT and BLOCK. -/
def Obligations.KeyAndNonceByteLanes : Prop :=
  ∀ (key nonce : List Byte) (ctr : Nat) (line : AsmLine) (header : Word),
    key.length = 32 → nonce.length = 12 → ctr < 2 ^ 64 →
    (line = .init key nonce ctr ∧ header = 0x00000001) ∨ (line = .block key nonce ctr ∧ header = 0x00000003) →
    ∃ ws, assembleLine line = some (ws, []) ∧ ws.length = 14 ∧ ws.getD 0 0 = header ∧
      (∀ m, m < 32 → wordByte (ws.getD (1 + m / 4) 0) (m % 4) = key.getD m 0) ∧
      (∀ m, m < 12 → wordByte (ws.getD (9 + m / 4) 0) (m % 4) = nonce.getD m 0) ∧
      2 ^ 32 * (ws.getD 13 0).toNat + (ws.getD 12 0).toNat = ctr

/-- R55: `Rsp(opc, status) = 2^8 * opc + status`. -/
def Obligations.ResponseWordValue : Prop :=
  ∀ (opc : BitVec 8) (st : Status), (rspWord opc st).toNat = 2 ^ 8 * opc.toNat + (statusCode st).toNat

/-- R57: `XORL len=n` is XOR commands whose lengths add up to `n`, all but the last of them the longest. -/
def Obligations.LongXorAddsUp : Prop :=
  ∀ n : Nat, n ≤ 2 ^ 70 →
    ∃ (q : Nat) (r : Word),
      assembleLine (.xorl n)
        = some (((List.replicate q (0xFFFFFFFF : Word) ++ [r]).map fun len => encode (.xor len)).flatten, []) ∧
      n = q * (2 ^ 32 - 1) + r.toNat ∧ r.toNat < 2 ^ 32 - 1

/-! ### Arithmetic primitives (00_scope section 6) -/

/-- R3: result bit `(i + n) mod 32` of `rotl(v, n)` is bit `i` of `v`, for the four amounts that occur. -/
def Obligations.RotlMovesBits : Prop :=
  ∀ (v : Word) (n : Nat), n = 16 ∨ n = 12 ∨ n = 8 ∨ n = 7 →
    ∀ i, i < 32 → (rotl v n).getLsbD ((i + n) % 32) = v.getLsbD i

/-- R5: `pack4` is the little-endian sum, `unpack4` undoes it, and `words` packs each four bytes of a string. -/
def Obligations.PackUnpack : Prop :=
  (∀ b0 b1 b2 b3 : Byte,
    (pack4 b0 b1 b2 b3).toNat = b0.toNat + 2 ^ 8 * b1.toNat + 2 ^ 16 * b2.toNat + 2 ^ 24 * b3.toNat ∧
    unpack4 (pack4 b0 b1 b2 b3) = [b0, b1, b2, b3]) ∧
  (∀ w : Word, pack4 (wordByte w 0) (wordByte w 1) (wordByte w 2) (wordByte w 3) = w) ∧
  (∀ (k : Nat) (bytes : List Byte) (i : Fin k), bytes.length = 4 * k →
    (wordsOf k bytes)[i] = pack4 (bytes.getD (4 * i.val) 0) (bytes.getD (4 * i.val + 1) 0)
      (bytes.getD (4 * i.val + 2) 0) (bytes.getD (4 * i.val + 3) 0))

/-! ### The permutation (41_permutation) -/

/-- R65: the quarter-round on four distinct words: their new values, and the other twelve words unchanged. -/
def Obligations.QuarterRoundValues : Prop :=
  ∀ (a b c d : Fin 16) (x : Block), a ≠ b → a ≠ c → a ≠ d → b ≠ c → b ≠ d → c ≠ d →
    let a1 := add32 x[a] x[b]
    let d1 := rotl (x[d] ^^^ a1) 16
    let c1 := add32 x[c] d1
    let b1 := rotl (x[b] ^^^ c1) 12
    let a2 := add32 a1 b1
    let d2 := rotl (d1 ^^^ a2) 8
    let c2 := add32 c1 d2
    let b2 := rotl (b1 ^^^ c2) 7
    (qr a b c d x)[a] = a2 ∧ (qr a b c d x)[b] = b2 ∧ (qr a b c d x)[c] = c2 ∧ (qr a b c d x)[d] = d2 ∧
    ∀ e : Fin 16, e ≠ a → e ≠ b → e ≠ c → e ≠ d → (qr a b c d x)[e] = x[e]

/-- R66, R70: quarter-rounds on disjoint quadruples commute, so the four of a pass may run in any order. -/
def Obligations.LanesCommute : Prop :=
  ∀ (a b c d a' b' c' d' : Fin 16) (x : Block), [a, b, c, d, a', b', c', d'].Nodup →
    qr a b c d (qr a' b' c' d' x) = qr a' b' c' d' (qr a b c d x)

/-- R69: `PERMUTE` is a bijection on 16-word blocks. -/
def Obligations.PermuteBijective : Prop := Function.Bijective permute

/-! ### Block derivation (42_block_derivation) -/

/-- R15, R16, R75: the sixteen words of the matrix, for every key, nonce and index; the view S is the matrix of KEY, NONCE
and CTR, so that it follows every write of the counter. -/
def Obligations.MatrixLayout : Prop :=
  (∀ s : State, viewS s = matrix s.key s.nonce s.ctr) ∧
  ∀ (k : Key) (n : Nonce) (c : U64),
    (matrix k n c)[0] = 0x61707865 ∧ (matrix k n c)[1] = 0x3320646E ∧
    (matrix k n c)[2] = 0x79622D32 ∧ (matrix k n c)[3] = 0x6B206574 ∧
    (∀ i : Fin 8, (matrix k n c)[4 + i.val] = k[i]) ∧
    (matrix k n c)[12].toNat = c.toNat % 2 ^ 32 ∧
    (matrix k n c)[13].toNat = (n[0].toNat + c.toNat / 2 ^ 32) % 2 ^ 32 ∧
    (matrix k n c)[14] = n[1] ∧ (matrix k n c)[15] = n[2]

/-- R91: for fixed key and nonce, distinct 64-bit indices give distinct input matrices. -/
def Obligations.MatrixDeterminesIndex : Prop :=
  ∀ (k : Key) (n : Nonce) (c c' : U64), matrix k n c = matrix k n c' → c = c'

/-- R75: `BlockFn` depends on the first nonce word and the high half of the index only through their sum. -/
def Obligations.NonceCounterAlias : Prop :=
  ∀ (k : Key) (n0 n1 n2 d : Word) (c : U64), d ≤ hi c →
    blockFn k #v[n0, n1, n2] c = blockFn k #v[add32 n0 d, n1, n2] (c - BitVec.ofNat 64 (2 ^ 32 * d.toNat))

/-- R78: byte `4i + j` of `BlockBytes` is byte `j` of word `i`; there are 64. -/
def Obligations.BlockBytesLayout : Prop :=
  ∀ (k : Key) (n : Nonce) (c : U64), (blockBytes k n c).length = 64 ∧
    ∀ (i : Fin 16) (j : Fin 4), (blockBytes k n c).getD (4 * i.val + j.val) 0 = wordByte (blockFn k n c)[i] j.val

/-- R76: `OVF <- 1` if `CTR = 2^64 - 1`, and `CTR <- (CTR + 1) mod 2^64`. -/
def Obligations.IncrementWithOverflow : Prop :=
  ∀ s : State,
    incCounter s = { s with ctr := s.ctr + 1, ovf := s.ovf || decide (s.ctr = 0xFFFFFFFFFFFFFFFF) }

/-- R31: byte `4i + j` is byte `j` of word `i`; a word write keeps the canonical form, the word and each of its bytes
read back, and every byte outside it reads as before. -/
def Obligations.BufferReadAfterWrite : Prop :=
  ∀ (m : Memory) (i : Fin 16) (v : Word), Memory.wf m = true →
    let a : BitVec 6 := BitVec.ofNat 6 (4 * i.val)
    (∀ j : Fin 4, memRead1 m (a + BitVec.ofNat 6 j.val) = wordByte (memRead4 m a) j.val) ∧
    Memory.wf (memWrite4 m a v) = true ∧
    memRead4 (memWrite4 m a v) a = v ∧
    (∀ j : Fin 4, memRead1 (memWrite4 m a v) (a + BitVec.ofNat 6 j.val) = wordByte v j.val) ∧
    (∀ b : BitVec 6, b.toNat / 4 ≠ i.val → memRead1 (memWrite4 m a v) b = memRead1 m b)

/-- R77: a derivation with `OVF = 1` raises; with `OVF = 0` the block of the old index is in the buffer as words and as
bytes, the counter has advanced, OVF is set exactly at the wrap, and nothing else has changed. -/
def Obligations.DerivationResult : Prop :=
  ∀ s : State, Memory.wf s.ksb = true →
    (s.ovf = true → ksgen s = none) ∧
    (s.ovf = false →
      ∃ t, ksgen s = some t ∧ Memory.wf t.ksb = true ∧
        (∀ i : Fin 16, ksWord t i = (blockFn s.key s.nonce s.ctr)[i]) ∧
        (∀ a : BitVec 6, memRead1 t.ksb a = (blockBytes s.key s.nonce s.ctr).getD a.toNat 0) ∧
        t = { s with
          ksb := t.ksb, ctr := s.ctr + 1, ovf := decide (s.ctr = 0xFFFFFFFFFFFFFFFF) })

/-- R77: the last block, index 2^64 - 1, is derived; the next derivation raises. -/
def Obligations.LastBlockThenRaise : Prop :=
  ∀ s : State, s.ovf = false → s.ctr = 0xFFFFFFFFFFFFFFFF →
    ∃ t, ksgen s = some t ∧ t.ctr = 0 ∧ t.ovf = true ∧ ksgen t = none

/-! ### INIT (40_init) -/

/-- R60: the whole next state of INIT, in UNINIT and READY mode, with the host taking the response or not. -/
def Obligations.InitResult : Prop :=
  ∀ (k : Key) (n : Nonce) (c : U64) (s : State), s.mode ≠ .fault →
    exec (.init k n c) s = .next
      { s with
        key := k, nonce := n, ctr := c, ovf := false, cur := 64, mode := .ready,
        opcL := 0x01,
        opw := #v[k[0], k[1], k[2], k[3], k[4], k[5], k[6], k[7], n[0], n[1], n[2],
          BitVec.ofNat 32 c.toNat, BitVec.ofNat 32 (c.toNat / 2 ^ 32)],
        seq := if s.rspTake = 0 then .rsp 0x00000100 else .header,
        rsp := if s.rspTake = 0 then s.rsp else s.rsp ++ [0x00000100],
        rspTake := s.rspTake - 1 }

/-! ### XOR (43_stream_xor) -/

/-- R80, R98: XOR in UNINIT mode is refused with NOINIT: no byte moves and only the sequencer and the response change,
for every length, LEN = 0 among them. -/
def Obligations.XorRefusedUninit : Prop :=
  ∀ (len : Word) (s : State), s.mode = .uninit →
    exec (.xor len) s = .next
      { s with
        opcL := 0x02, opw := s.opw.set 0 len,
        seq := if s.rspTake = 0 then .rsp 0x00000202 else .header,
        rsp := if s.rspTake = 0 then s.rsp else s.rsp ++ [0x00000202],
        rspTake := s.rspTake - 1 }

/-- R84: a zero-length XOR in READY mode changes nothing but the sequencer and the response, even when CUR = 64 and
OVF = 1. -/
def Obligations.XorZeroLength : Prop :=
  ∀ s : State, s.mode = .ready →
    exec (.xor 0) s = .next
      { s with
        opcL := 0x02, opw := s.opw.set 0 0, rem := 0,
        seq := if s.rspTake = 0 then .rsp 0x00000200 else .header,
        rsp := if s.rspTake = 0 then s.rsp else s.rsp ++ [0x00000200],
        rspTake := s.rspTake - 1 }

/-- R81: one byte from a buffer that is not used up: the byte at CUR, then CUR + 1; no derivation. -/
def Obligations.XorOneBufferedByte : Prop :=
  ∀ (s : State) (b : Byte) (bs : List Byte), s.mode = .ready → s.cur < 64 → s.din = b :: bs → s.doutTake ≠ 0 →
    exec (.xor 1) s = .next
      { s with
        opcL := 0x02, opw := s.opw.set 0 1, rem := 0, cur := s.cur + 1,
        din := bs, dout := s.dout ++ [b ^^^ memRead1 s.ksb (BitVec.ofNat 6 s.cur.toNat)], doutTake := s.doutTake - 1,
        seq := if s.rspTake = 0 then .rsp 0x00000200 else .header,
        rsp := if s.rspTake = 0 then s.rsp else s.rsp ++ [0x00000200],
        rspTake := s.rspTake - 1 }

/-- R81, R85: one byte from a used-up buffer: the block of index CTR is derived first, its byte 0 is used, and CTR has
advanced by one. -/
def Obligations.XorDerivesOnDemand : Prop :=
  ∀ (s : State) (b : Byte) (bs : List Byte), s.mode = .ready → Memory.wf s.ksb = true → s.cur = 64 → s.ovf = false →
    s.din = b :: bs → s.doutTake ≠ 0 →
    ∃ t, exec (.xor 1) s = .next t ∧
      (∀ i : Fin 16, ksWord t i = (blockFn s.key s.nonce s.ctr)[i]) ∧
      t = { s with
        opcL := 0x02, opw := s.opw.set 0 1, rem := 0, ksb := t.ksb, cur := 1, ctr := s.ctr + 1,
        ovf := decide (s.ctr = 0xFFFFFFFFFFFFFFFF),
        din := bs, dout := s.dout ++ [b ^^^ wordByte (blockFn s.key s.nonce s.ctr)[0] 0], doutTake := s.doutTake - 1,
        seq := if s.rspTake = 0 then .rsp 0x00000200 else .header,
        rsp := if s.rspTake = 0 then s.rsp else s.rsp ++ [0x00000200],
        rspTake := s.rspTake - 1 }

/-- R104: the entry of Exhausted, all of it: MODE <- FAULT and the response 0x00000203; the failing byte is not taken, and
REM keeps the count of bytes not processed. -/
def Obligations.ExhaustedEntry : Prop :=
  ∀ (s : State) (len : Word), s.mode = .ready → s.ovf = true → 64 ≤ s.cur → len ≠ 0 →
    exec (.xor len) s = .next
      { s with
        opcL := 0x02, opw := s.opw.set 0 len, rem := len, mode := .fault,
        seq := if s.rspTake = 0 then .rsp 0x00000203 else .header,
        rsp := if s.rspTake = 0 then s.rsp else s.rsp ++ [0x00000203],
        rspTake := s.rspTake - 1 }

/-- R87: the end state of a chunk, its three cases, for every cursor, counter and length, when the host supplies the
bytes and takes what it is offered; and everything no rule lets XOR write is unchanged. -/
def Obligations.XorEndState : Prop :=
  ∀ (len : Word) (s : State), s.mode = .ready → Memory.wf s.ksb = true → s.cur ≤ 64 →
    len.toNat ≤ s.din.length → len.toNat ≤ s.doutTake → s.rspTake ≠ 0 →
    let n := len.toNat
    let a := buffered s
    let d := needed s n
    let blocks := derivable s
    ∃ t, exec (.xor len) s = .next t ∧
      (n ≤ a →
        t.cur.toNat = s.cur.toNat + n ∧ t.ctr = s.ctr ∧ t.ovf = s.ovf ∧ t.ksb = s.ksb ∧ t.mode = .ready ∧ t.rem = 0 ∧
        t.rsp = s.rsp ++ [0x00000200] ∧ t.din = s.din.drop n ∧ t.dout.length = s.dout.length + n) ∧
      (a < n → d ≤ blocks →
        t.ctr = s.ctr + BitVec.ofNat 64 d ∧ t.ovf = (s.ovf || decide (d = blocks)) ∧
        t.cur.toNat = n - a - 64 * (d - 1) ∧
        (∀ i : Fin 16, ksWord t i = (blockFn s.key s.nonce (s.ctr + BitVec.ofNat 64 (d - 1)))[i]) ∧
        t.mode = .ready ∧ t.rem = 0 ∧
        t.rsp = s.rsp ++ [0x00000200] ∧ t.din = s.din.drop n ∧ t.dout.length = s.dout.length + n) ∧
      (a < n → blocks < d →
        t.ctr = (if blocks = 0 then s.ctr else 0) ∧ t.ovf = true ∧ t.cur = 64 ∧ t.mode = .fault ∧
        t.rem.toNat = n - a - 64 * blocks ∧
        t.rsp = s.rsp ++ [0x00000203] ∧ t.din = s.din.drop (a + 64 * blocks) ∧
        t.dout.length = s.dout.length + (a + 64 * blocks)) ∧
      t.key = s.key ∧ t.nonce = s.nonce ∧ t.opcL = 0x02 ∧ t.opw = s.opw.set 0 len ∧ t.seq = .header ∧
      t.rst = s.rst ∧ t.cmd = s.cmd ∧ t.rspTake = s.rspTake - 1 ∧
      t.doutTake + t.dout.length = s.doutTake + s.dout.length

/-- R34, R81, R86: the bytes XOR writes: the `i`-th byte taken, XORed with the `i`-th keystream byte from here; as many as
R87 says are moved. -/
def Obligations.XorOutputBytes : Prop :=
  ∀ (len : Word) (s : State), s.mode = .ready → Memory.wf s.ksb = true → s.cur ≤ 64 →
    len.toNat ≤ s.din.length → len.toNat ≤ s.doutTake → s.rspTake ≠ 0 →
    ∃ t, exec (.xor len) s = .next t ∧
      t.dout = s.dout ++ (List.range (moved s len.toNat)).map fun i => s.din.getD i 0 ^^^ streamByte s i

/-- R86: the `i`-th byte of a lifetime started by INIT is XORed with byte `i mod 64` of the block of index
`c0 + (i div 64)`. -/
def Obligations.LifetimeKeystream : Prop :=
  ∀ (k : Key) (n : Nonce) (c : U64) (len : Word) (s : State), s.mode ≠ .fault → Memory.wf s.ksb = true →
    len.toNat ≤ s.din.length → len.toNat ≤ s.doutTake → 2 ≤ s.rspTake →
    c.toNat + (len.toNat + 63) / 64 ≤ 2 ^ 64 →
    ∃ t u, exec (.init k n c) s = .next t ∧ exec (.xor len) t = .next u ∧
      u.dout = s.dout ++ (List.range len.toNat).map fun i =>
        s.din.getD i 0 ^^^ (blockBytes k n (c + BitVec.ofNat 64 (i / 64))).getD (i % 64) 0

/-- R82: chunk transparency. Two chunks leave the same cipher state, take the same bytes and write the same bytes as one,
also where exhaustion is raised. -/
def Obligations.ChunkTransparency : Prop :=
  ∀ (n1 n2 : Word) (s : State), s.mode = .ready → n1.toNat + n2.toNat < 2 ^ 32 →
    n1.toNat + n2.toNat ≤ s.din.length → n1.toNat + n2.toNat ≤ s.doutTake → 2 ≤ s.rspTake →
    ∃ t u v, exec (.xor n1) s = .next t ∧ exec (.xor n2) t = .next u ∧ exec (.xor (n1 + n2)) s = .next v ∧
      u.key = v.key ∧ u.nonce = v.nonce ∧ u.ctr = v.ctr ∧ u.ovf = v.ovf ∧ u.ksb = v.ksb ∧ u.cur = v.cur ∧
      u.mode = v.mode ∧ u.din = v.din ∧ u.dout = v.dout ∧ u.cmd = v.cmd ∧ u.rst = v.rst

/-- R83: encrypting twice with identical parameters recovers the original, provided neither run raises exhaustion. -/
def Obligations.SelfInverse : Prop :=
  ∀ (k : Key) (n : Nonce) (c : U64) (bytes : List Byte) (s : State), s.mode ≠ .fault → Memory.wf s.ksb = true →
    bytes.length < 2 ^ 32 → c.toNat + (bytes.length + 63) / 64 ≤ 2 ^ 64 →
    2 * bytes.length ≤ s.doutTake → 4 ≤ s.rspTake →
    ∃ t1 t2 t3 t4 cipher,
      exec (.init k n c) { s with din := bytes } = .next t1 ∧
      exec (.xor (BitVec.ofNat 32 bytes.length)) t1 = .next t2 ∧
      t2.dout = s.dout ++ cipher ∧ cipher.length = bytes.length ∧
      exec (.init k n c) { t2 with din := cipher } = .next t3 ∧
      exec (.xor (BitVec.ofNat 32 bytes.length)) t3 = .next t4 ∧
      t4.dout = t2.dout ++ bytes

/-- R33, R86: the moment at which the host offers the data bytes does not matter: an XOR that ran out of bytes and is
taken up later ends as one that had them all. That one step runs to the next hold is the model's choice (log 2). -/
def Obligations.LateDataSameEnd : Prop :=
  ∀ (len : Word) (s t : State) (now later : List Byte), s.mode = .ready → s.rst = false →
    exec (.xor len) { s with din := now } = .next t → t.seq = .din →
    step (hostOfferDin later t) = exec (.xor len) { s with din := now ++ later }

/-- R33, R86: the moment at which the host takes the output bytes does not matter, for XOR and for BLOCK. That one step
runs to the next hold is the model's choice (log 2). -/
def Obligations.LateTakingSameEnd : Prop :=
  (∀ (len : Word) (s t : State) (b : Byte) (now later : Nat), s.mode = .ready → s.rst = false →
    exec (.xor len) { s with doutTake := now } = .next t → t.seq = .doutXor b →
    step (hostTakeDout later t) = exec (.xor len) { s with doutTake := now + later }) ∧
  (∀ (k : Key) (n : Nonce) (c : U64) (s t : State) (bs : List Byte) (now later : Nat), s.mode ≠ .fault →
    s.rst = false → exec (.block k n c) { s with doutTake := now } = .next t → t.seq = .doutBlock bs →
    step (hostTakeDout later t) = exec (.block k n c) { s with doutTake := now + later })

/-- R34: XOR writes a byte for a byte: those it has taken and not yet transferred are the one it is offering. That it is
at most one is the model's choice of `DOUT_SLACK` = 0, which R39(c) leaves open (log 4). -/
def Obligations.XorByteForByte : Prop :=
  ∀ (len : Word) (s t : State), s.mode ≠ .fault → exec (.xor len) s = .next t →
    ∃ k, k ≤ len.toNat ∧ t.din = s.din.drop k ∧ k ≤ s.din.length ∧
      t.dout.length + (if (placeOf t.seq) = .doutXor then 1 else 0) = s.dout.length + k ∧
      s.dout <+: t.dout

/-- R58: nothing XOR decides depends on a key, nonce, keystream or data byte value: two states that differ only there end
alike in the counter, the flags, the modes, the sequencer, the responses and the number of bytes moved. -/
def Obligations.XorControlIgnoresData : Prop :=
  ∀ (len : Word) (s : State) (key' : Key) (nonce' : Nonce) (ksb' : Memory) (din' : List Byte),
    din'.length = s.din.length → s.mode ≠ .fault →
    ∃ t u, exec (.xor len) s = .next t ∧
      exec (.xor len) { s with key := key', nonce := nonce', ksb := ksb', din := din' } = .next u ∧
      t.ctr = u.ctr ∧ t.ovf = u.ovf ∧ t.cur = u.cur ∧ t.mode = u.mode ∧ t.opcL = u.opcL ∧ t.opw = u.opw ∧
      t.rem = u.rem ∧ placeOf t.seq = placeOf u.seq ∧ t.rsp = u.rsp ∧ t.din.length = u.din.length ∧
      t.dout.length = u.dout.length ∧ t.doutTake = u.doutTake ∧ t.rspTake = u.rspTake

/-- The frame of XOR, wherever it stops (R27, R80): key, nonce, the words on `cmd`, `rst` and the operand words past the
first are unchanged; MODE changes only to FAULT; and unless a block is needed, so is every byte of the buffer. -/
def Obligations.XorFrame : Prop :=
  ∀ (len : Word) (s t : State), exec (.xor len) s = .next t →
    t.key = s.key ∧ t.nonce = s.nonce ∧ t.cmd = s.cmd ∧ t.rst = s.rst ∧
    (∀ i : Fin 13, i ≠ 0 → t.opw[i] = s.opw[i]) ∧
    (t.mode = s.mode ∨ (s.mode = .ready ∧ t.mode = .fault)) ∧
    (s.ovf = true → t.ovf = true ∧ t.ctr = s.ctr) ∧
    (s.mode = .uninit → t.ctr = s.ctr ∧ t.ovf = s.ovf ∧ t.cur = s.cur ∧ t.ksb = s.ksb ∧ t.rem = s.rem) ∧
    (len.toNat ≤ buffered s → t.ctr = s.ctr ∧ t.ovf = s.ovf ∧ ∀ a : BitVec 6, memRead1 t.ksb a = memRead1 s.ksb a)

/-! ### BLOCK (44_block) -/

/-- R90: the whole next state of BLOCK when the host takes the 64 bytes: they are `BlockBytes` of the operands, and no
register of the Cipher State has changed. -/
def Obligations.BlockResult : Prop :=
  ∀ (k : Key) (n : Nonce) (c : U64) (s : State), s.mode ≠ .fault → 64 ≤ s.doutTake →
    exec (.block k n c) s = .next
      { s with
        opcL := 0x03,
        opw := #v[k[0], k[1], k[2], k[3], k[4], k[5], k[6], k[7], n[0], n[1], n[2],
          BitVec.ofNat 32 c.toNat, BitVec.ofNat 32 (c.toNat / 2 ^ 32)],
        dout := s.dout ++ blockBytes k n c, doutTake := s.doutTake - 64,
        seq := if s.rspTake = 0 then .rsp 0x00000300 else .header,
        rsp := if s.rspTake = 0 then s.rsp else s.rsp ++ [0x00000300],
        rspTake := s.rspTake - 1 }

/-- The frame of BLOCK, wherever it stops (R27, R90): no register of the Cipher State, no byte of the buffer, no data byte
and no further command word is touched. -/
def Obligations.BlockKeepsStream : Prop :=
  ∀ (k : Key) (n : Nonce) (c : U64) (s t : State), exec (.block k n c) s = .next t →
    t.key = s.key ∧ t.nonce = s.nonce ∧ t.ctr = s.ctr ∧ t.ovf = s.ovf ∧ t.ksb = s.ksb ∧ t.cur = s.cur ∧
    t.mode = s.mode ∧ t.rem = s.rem ∧ t.din = s.din ∧ t.cmd = s.cmd ∧ t.rst = s.rst ∧
    (∀ a : BitVec 6, memRead1 t.ksb a = memRead1 s.ksb a)

/-- R90: BLOCK writes the 64 bytes that INIT with the same operands and an XOR of 64 zero bytes would write. -/
def Obligations.BlockIsStreamOfZeros : Prop :=
  ∀ (k : Key) (n : Nonce) (c : U64) (s : State), s.mode ≠ .fault → Memory.wf s.ksb = true → 64 ≤ s.doutTake →
    2 ≤ s.rspTake →
    ∃ t u v, exec (.block k n c) s = .next t ∧
      exec (.init k n c) { s with din := List.replicate 64 0 } = .next u ∧ exec (.xor 64) u = .next v ∧
      t.dout = v.dout

/-- R26: what BLOCK and INIT show on `dout` and `rsp` does not depend on the registers of the Cipher State. -/
def Obligations.NoReadBack : Prop :=
  ∀ (i : Instr) (s : State) (key' : Key) (nonce' : Nonce) (ctr' : U64) (ovf' : Bool) (ksb' : Memory) (cur' : BitVec 7),
    (∀ len, i ≠ .xor len) →
    ∃ t u, exec i s = .next t ∧
      exec i { s with key := key', nonce := nonce', ctr := ctr', ovf := ovf', ksb := ksb', cur := cur' } = .next u ∧
      t.dout = u.dout ∧ t.rsp = u.rsp ∧ t.seq = u.seq

/-! ### MainLoop, FAULT mode, reset (30_encoding, 60_exceptions, 70_reset_and_hazards) -/

/-- R53: when the words on offer at the top of MainLoop decode to a command, the step is that command's meaning on the
state with its words taken. That one step takes a whole command is the model's choice (log 2). -/
def Obligations.StepRunsDecoded : Prop :=
  ∀ (s : State) (i : Instr) (rest : List Word), s.rst = false → s.mode ≠ .fault → s.seq = .header →
    decode s.cmd = .command i rest → step s = exec i { s with cmd := rest }

/-- R52, R53: the operand words may come late: a command whose words come in two parts runs as one that came whole, and
one still incomplete waits the same. That one step takes all the words on offer is the model's choice (log 2, 21). -/
def Obligations.LateWordsSameCommand : Prop :=
  ∀ (s t : State) (now later : List Word) (got : Nat), s.rst = false → s.mode ≠ .fault → s.seq = .header →
    step { s with cmd := now } = .next t → t.seq = .operand got →
    step (hostOfferCmd later t) = step { s with cmd := now ++ later }

/-- R51, R97: the step on an illegal header: one word taken, OPC_L latches its low byte, the response says ILLEGAL, nothing
else changes, in UNINIT and READY mode alike. -/
def Obligations.IllegalHeaderStep : Prop :=
  ∀ (s : State) (h : Word) (rest : List Word), s.rst = false → s.mode ≠ .fault → s.seq = .header →
    s.cmd = h :: rest → h ≠ 0x00000001 → h ≠ 0x00000002 → h ≠ 0x00000003 →
    step s = .next
      { s with
        cmd := rest, opcL := BitVec.ofNat 8 h.toNat,
        seq := if s.rspTake = 0 then .rsp (BitVec.ofNat 32 (2 ^ 8 * (h.toNat % 256) + 1)) else .header,
        rsp := if s.rspTake = 0 then s.rsp else s.rsp ++ [BitVec.ofNat 32 (2 ^ 8 * (h.toNat % 256) + 1)],
        rspTake := s.rspTake - 1 }

/-- R33: while a primitive holds, no state changes: each of the four, when the host has nothing for it. That holding is a
step to the same state is the model's choice (log 1). -/
def Obligations.HoldKeepsState : Prop :=
  ∀ s : State, s.rst = false →
    (s.seq = .header ∧ s.cmd = [] ∨
     (∃ got, s.seq = .operand got ∧ s.mode ≠ .fault ∧ operandPosition got s = true ∧ s.cmd = []) ∨
     (s.seq = .din ∧ s.din = [] ∧ s.cur < 64 ∧ s.rem ≠ 0) ∨
     (∃ b, s.seq = .doutXor b ∧ s.doutTake = 0) ∨
     (∃ b bs, s.seq = .doutBlock (b :: bs) ∧ s.doutTake = 0) ∨
     (∃ w, s.seq = .rsp w ∧ s.rspTake = 0)) →
    step s = .next s

/-- R55, R104: a response on offer is transferred when the host takes it, and changes nothing else; the engine is at the
top of MainLoop again. -/
def Obligations.ResponseTaken : Prop :=
  ∀ (s : State) (w : Word), s.rst = false → s.seq = .rsp w → s.rspTake ≠ 0 →
    step s = .next { s with rsp := s.rsp ++ [w], rspTake := s.rspTake - 1, seq := .header }

/-- R105: in FAULT mode, its response taken, the engine holds for ever, whatever the host has on offer. That holding is a
step to the same state is the model's choice (log 1, 6). -/
def Obligations.FaultHoldsForever : Prop :=
  ∀ s : State, s.mode = .fault → s.seq = .header → s.rst = false → step s = .next s

/-- R105, R108: in FAULT mode no command is taken: every meaning leaves the state as it is. That a meaning applied in FAULT
mode answers the same state is the model's choice (log 6). -/
def Obligations.FaultTakesNoCommand : Prop :=
  ∀ (i : Instr) (s : State), s.mode = .fault → exec i s = .next s

/-- R21, R105: the mode changes of a step: FAULT is left by reset only, UNINIT is entered by reset only, READY is entered
by INIT only, FAULT is entered from READY only. -/
def Obligations.ModeTransitions : Prop :=
  ∀ s t : State, step s = .next t → s.rst = false →
    (s.mode = .fault → t.mode = .fault) ∧
    (t.mode = .uninit → s.mode = .uninit) ∧
    (s.mode = .uninit → t.mode = .ready → t.opcL = 0x01 ∧ t.opw = operandsK t.key t.nonce t.ctr) ∧
    (Inv s → t.mode = .fault → s.mode = .fault ∨ s.mode = .ready)

/-- R62, R76, R77: a step that is no reset either took an INIT or is some number `d` of block derivations: KEY and NONCE do
not change, KS, CTR and OVF are what `d` times KSGEN leaves, CTR has advanced by `d`, at most the blocks still derivable,
and OVF is set exactly where `d` reaches that bound. In a state of the invariant `d` accounts for the bytes: those
buffered before and those of the `d` blocks are those buffered after and those XOR has written. -/
def Obligations.LifetimeFixed : Prop :=
  ∀ s t : State, step s = .next t → s.rst = false →
    (t.key = s.key ∧ t.nonce = s.nonce ∧ (s.ovf = true → t.ovf = true ∧ t.ctr = s.ctr) ∧
      ∃ d u, derivations d s = some u ∧ t.ksb = u.ksb ∧ t.ctr = u.ctr ∧ t.ovf = u.ovf ∧
        d ≤ derivable s ∧ t.ctr = s.ctr + BitVec.ofNat 64 d ∧ t.ovf = (s.ovf || decide (d = derivable s)) ∧
        (Inv s → buffered s + 64 * d =
          buffered t + (if t.opcL = 0x02 then t.dout.length - s.dout.length else 0))) ∨
    (∃ k n c u, fetch s = .run (.init k n c) u ∧
      t.key = k ∧ t.nonce = n ∧ t.ctr = c ∧ t.ovf = false ∧ t.cur = 64 ∧ t.mode = .ready)

/-- R53: every command that ends gives exactly one response, and one that has not ended gives none. -/
def Obligations.OneResponsePerCommand : Prop :=
  ∀ (i : Instr) (s : State), s.mode ≠ .fault →
    ∃ t, exec i s = .next t ∧
      ((t.seq = .header ∧ ∃ w, t.rsp = s.rsp ++ [w]) ∨ (t.seq ≠ .header ∧ t.rsp = s.rsp))

/-- R36, R121: no transfer is undone: what the host has taken stays, and what it has on offer is only ever taken from the
front; for every step, reset among them. -/
def Obligations.TransfersStand : Prop :=
  ∀ s t : State, step s = .next t →
    s.dout <+: t.dout ∧ s.rsp <+: t.rsp ∧ t.din <:+ s.din ∧ t.cmd <:+ s.cmd

/-- R120, R121: an edge with `rst = 1`: every register has its reset value, nothing is on offer, no transfer has
happened, and the host's side is as it was. -/
def Obligations.ResetEdge : Prop :=
  ∀ s : State, s.rst = true →
    ∃ t, step s = .next t ∧
      t.key = Vector.replicate 8 0 ∧ t.nonce = Vector.replicate 3 0 ∧ t.ctr = 0 ∧ t.ovf = false ∧
      (∀ i : Fin 16, ksWord t i = 0) ∧ t.cur = 64 ∧ t.mode = .uninit ∧
      t.opcL = 0 ∧ t.opw = Vector.replicate 13 0 ∧ t.rem = 0 ∧ t.seq = .header ∧
      t.cmd = s.cmd ∧ t.din = s.din ∧ t.dout = s.dout ∧ t.rsp = s.rsp ∧
      cmdReady t = false ∧ dinReady t = false ∧ doutValid t = false ∧ rspValid t = false ∧
      faultOut t = false ∧ ovfOut t = false

/-- R29: the state after reset, and the engine waiting for a header in it. -/
def Obligations.ResetValues : Prop :=
  let s := State.reset
  (∀ i : Fin 8, s.key[i] = 0) ∧ (∀ i : Fin 3, s.nonce[i] = 0) ∧ s.ctr = 0 ∧ s.ovf = false ∧
  (∀ i : Fin 16, ksWord s i = 0) ∧ s.cur = 64 ∧ s.mode = .uninit ∧ s.opcL = 0 ∧ (∀ i : Fin 13, s.opw[i] = 0) ∧
  s.rem = 0 ∧ faultOut s = false ∧ ovfOut s = false ∧ doutValid s = false ∧ rspValid s = false

/-- R33, R38, R105: the engine is in at most one channel primitive at a time, and in FAULT mode, its response taken, in
none. The relaxation of R39(c) is not used: the model's choice of `DOUT_SLACK` = 0 (log 4). -/
def Obligations.OnePrimitiveAtATime : Prop :=
  ∀ s : State,
    ([cmdReady s, dinReady s, doutValid s, rspValid s].filter id).length ≤ 1 ∧
    (s.mode = .fault → s.seq = .header →
      cmdReady s = false ∧ dinReady s = false ∧ doutValid s = false ∧ rspValid s = false)

/-- R39: the order across channels, at the places where the engine holds: while a response is on offer no word and no byte
is taken and none is given; while a byte is on offer no word is taken and no response is given. That no further data byte
is taken meanwhile is the model's choice of `DOUT_SLACK` = 0 (log 4). -/
def Obligations.ChannelOrder : Prop :=
  ∀ s t : State, step s = .next t → s.rst = false →
    (∀ w, s.seq = .rsp w → t.cmd = s.cmd ∧ t.din = s.din ∧ t.dout = s.dout) ∧
    (∀ b, s.seq = .doutXor b → s.doutTake = 0 → t.cmd = s.cmd ∧ t.din = s.din ∧ t.rsp = s.rsp) ∧
    (∀ b bs, s.seq = .doutBlock (b :: bs) → s.doutTake = 0 → t.cmd = s.cmd ∧ t.din = s.din ∧ t.rsp = s.rsp) ∧
    ((∃ got, t.seq = .operand got) → t.din = s.din ∧ t.dout = s.dout ∧ t.rsp = s.rsp)

/-! ### The invariant -/

/-- The state after reset meets the invariant. -/
def Obligations.ResetMeetsInvariant : Prop := Inv State.reset

/-- R16, R18, R19, R20, R21, R31: every step keeps the invariant. -/
def Obligations.StepKeepsInvariant : Prop :=
  ∀ s t : State, Inv s → step s = .next t → Inv t

/-- R86, R100: nothing stops the machine: from every state that meets the invariant a step answers a next state, never a
fault and never a refusal. That a step in which the engine only holds answers a next state too is the model's choice
(log 1); so is the one fault of the model, at a position of the sequencer that the invariant excludes (log 7). -/
def Obligations.StepAlwaysAnswers : Prop :=
  ∀ s : State, Inv s → ∃ t, step s = .next t

/-- R19: in a reachable state with an unconsumed buffer, the byte at the cursor is the byte of the block whose index is one
less than CTR. -/
def Obligations.BufferHoldsBlock : Prop :=
  ∀ s : State, Inv s → s.mode = .ready → s.cur < 64 → ∀ a : BitVec 6,
    memRead1 s.ksb a = (blockBytes s.key s.nonce (s.ctr - 1)).getD a.toNat 0
end

