-- ==== Sys2Proof/Laws/Decode.lean ====
section
/-! SUPPORT. When the decoder waits for operands, which headers are legal, and what a whole command leaves over. -/

namespace Sys2Proof.Laws

/-- R49, R51: a header is legal exactly when it is the header of an opcode. -/
theorem headerOpcode_eq_some {h : Word} {o : Opcode} : headerOpcode h = some o ↔ h = opcodeHeader o := by
  unfold headerOpcode
  split_ifs with h1 h2 h3 <;> cases o <;> simp_all [opcodeHeader]

/-- R46: a legal header is its low byte. -/
theorem header_low {h : Word} {o : Opcode} (ho : headerOpcode h = some o) :
    (BitVec.extractLsb' 0 8 h).setWidth 32 = h := by
  rw [headerOpcode_eq_some.1 ho]; cases o <;> decide

/-- R45: format K needs 13 words. -/
theorem takeK_eq_none {ops : List Word} : takeK ops = none ↔ ops.length < 13 := by
  unfold takeK
  split
  · simp only [List.length_cons, reduceCtorEq, false_iff]; omega
  · next h =>
    simp only [true_iff]
    rcases ops with _|⟨a0,_|⟨a1,_|⟨a2,_|⟨a3,_|⟨a4,_|⟨a5,_|⟨a6,_|⟨a7,_|⟨a8,_|⟨a9,_|⟨a10,_|⟨a11,_|⟨a12,r⟩⟩⟩⟩⟩⟩⟩⟩⟩⟩⟩⟩⟩ <;>
      first
      | exact absurd rfl (h _ _ _ _ _ _ _ _ _ _ _ _ _ _)
      | (simp only [List.length_cons, List.length_nil]; omega)

/-- What format K takes off the front is the first 13 words. -/
theorem takeK_rest {ops rest : List Word} {k : Key} {n : Nonce} {c : U64} (h : takeK ops = some (k, n, c, rest)) :
    rest = ops.drop 13 := by
  unfold takeK at h
  split at h
  · cases h; rfl
  · cases h

/-- The decoder waits exactly behind a legal header with too few words after it. -/
theorem decode_operandsMissing {ws : List Word} :
    decode ws = .operandsMissing ↔ ∃ h ops o, ws = h :: ops ∧ headerOpcode h = some o ∧ ops.length < opcodeNops o := by
  cases ws with
  | nil => simp [decode]
  | cons h ops =>
    cases ho : headerOpcode h with
    | none => simp [decode, ho]
    | some o =>
      have e : (∃ h' ops' o', h :: ops = h' :: ops' ∧ headerOpcode h' = some o' ∧ ops'.length < opcodeNops o') ↔
          ops.length < opcodeNops o := by
        constructor
        · rintro ⟨h', ops', o', e, ho', hl⟩
          cases e
          rw [ho] at ho'
          cases ho'
          exact hl
        · exact fun hl => ⟨h, ops, o, rfl, ho, hl⟩
      rw [e]
      unfold decode
      dsimp only
      rw [ho]
      cases o with
      | init =>
        rw [show opcodeNops .init = 13 from rfl, ← takeK_eq_none]
        cases takeK ops <;> simp
      | xor => cases ops <;> simp [takeL, opcodeNops]
      | block =>
        rw [show opcodeNops .block = 13 from rfl, ← takeK_eq_none]
        cases takeK ops <;> simp

/-- A whole command is a legal header and `NOPS` words; the rest is what stands behind them. -/
theorem decode_command {ws rest : List Word} {i : Instr} (h : decode ws = .command i rest) :
    ∃ o, headerOpcode (ws.headD 0) = some o ∧ 1 + opcodeNops o ≤ ws.length ∧ rest = ws.drop (1 + opcodeNops o) := by
  cases ws with
  | nil => cases h
  | cons w ops =>
    cases ho : headerOpcode w with
    | none => simp [decode, ho] at h
    | some o =>
      refine ⟨o, ho, ?_, ?_⟩
      · by_contra hl
        rw [decode_operandsMissing.2 ⟨w, ops, o, rfl, ho, by rw [List.length_cons] at hl; omega⟩] at h
        cases h
      · unfold decode at h
        dsimp only at h
        rw [ho] at h
        cases o with
        | init =>
          dsimp only at h
          split at h
          · next hk => cases h; exact takeK_rest hk
          · cases h
        | xor => cases ops <;> cases h; rfl
        | block =>
          dsimp only at h
          split at h
          · next hk => cases h; exact takeK_rest hk
          · cases h

end Sys2Proof.Laws
end

