-- ==== Sys2Proof/Laws/Memory.lean ====
section
/-! SUPPORT. The keystream buffer as memory (R31): the canonical form is kept by every memory operation, a read after a
write gives the value written and every other place is left alone, equal reads are equal memories. -/

namespace Sys2Proof.Laws

open Sys2Proof.Machine

/-- The canonical form as facts about the cells. -/
theorem wf_iff (m : Memory) :
    Memory.wf m = true ↔ m.Pairwise (fun x y => x.1 < y.1) ∧ ∀ c ∈ m, c.1 < 64 ∧ c.2 ≠ 0 := by
  induction m with
  | nil => simp [Memory.wf]
  | cons x m ih =>
    obtain ⟨a, b⟩ := x
    cases m with
    | nil => simp [Memory.wf]
    | cons y m =>
      obtain ⟨a', b'⟩ := y
      rw [Memory.wf, Bool.and_eq_true, Bool.and_eq_true, ih]
      simp only [decide_eq_true_eq, List.pairwise_cons, List.mem_cons, forall_eq_or_imp]
      constructor
      · rintro ⟨⟨h1, h2⟩, ⟨h3, h4⟩, ⟨h5, h6⟩, h7⟩
        exact ⟨⟨⟨h1, fun c hc => lt_trans h1 (h3 c hc)⟩, h3, h4⟩, ⟨by omega, h2⟩, ⟨h5, h6⟩, h7⟩
      · rintro ⟨⟨⟨h1, -⟩, h3, h4⟩, ⟨-, h2⟩, ⟨h5, h6⟩, h7⟩
        exact ⟨⟨h1, h2⟩, ⟨h3, h4⟩, ⟨h5, h6⟩, h7⟩

theorem wf_nil : Memory.wf [] = true := rfl

theorem wf_tail {x : Host.Cell} {m : Memory} (h : Memory.wf (x :: m) = true) : Memory.wf m = true := by
  rw [wf_iff] at *
  exact ⟨(List.pairwise_cons.mp h.1).2, fun c hc => h.2 c (List.mem_cons_of_mem _ hc)⟩

/-- A key below every listed address reads 0. -/
theorem cellRead_of_lt (k : Nat) (m : Memory) (h : ∀ c ∈ m, k < c.1) : cellRead k m = 0 := by
  induction m with
  | nil => rfl
  | cons x m ih =>
    have hx := h x (List.mem_cons_self ..)
    rw [cellRead, if_neg (by omega)]
    exact ih fun c hc => h c (List.mem_cons_of_mem _ hc)

/-- The cells a write leaves: those there were, and the one written. -/
theorem mem_cellWrite {k : Nat} {v : Byte} {m : Memory} {c : Host.Cell} (h : c ∈ cellWrite k v m) :
    c ∈ m ∨ (c = (k, v) ∧ v ≠ 0) := by
  induction m with
  | nil =>
    rw [cellWrite] at h
    split at h <;> simp_all
  | cons x m ih =>
    rw [cellWrite] at h
    split at h
    · split at h <;> simp_all
      tauto
    · split at h
      · split at h <;> simp_all
        tauto
      · rcases List.mem_cons.mp h with h | h
        · exact .inl (by simp [h])
        · rcases ih h with h | h
          · exact .inl (List.mem_cons_of_mem _ h)
          · exact .inr h

/-- A write keeps the canonical form. -/
theorem wf_cellWrite {k : Nat} (v : Byte) {m : Memory} (hk : k < 64) (h : Memory.wf m = true) :
    Memory.wf (cellWrite k v m) = true := by
  rw [wf_iff] at *
  refine ⟨?_, fun c hc => ?_⟩
  · induction m with
    | nil => rw [cellWrite]; split <;> simp
    | cons x m ih =>
      obtain ⟨hs, hc⟩ := h
      obtain ⟨hx, hm⟩ := List.pairwise_cons.mp hs
      have ih := ih ⟨hm, fun c h => hc c (List.mem_cons_of_mem _ h)⟩
      rw [cellWrite]
      split
      · next hlt =>
        split
        · exact hs
        · refine List.pairwise_cons.mpr ⟨fun c h => ?_, hs⟩
          rcases List.mem_cons.mp h with rfl | h
          · exact hlt
          · exact lt_trans hlt (hx c h)
      · split
        · next heq =>
          split
          · exact hm
          · exact List.pairwise_cons.mpr ⟨fun c h => heq ▸ hx c h, hm⟩
        · next hlt hne =>
          refine List.pairwise_cons.mpr ⟨fun c h => ?_, ih⟩
          rcases mem_cellWrite h with h | ⟨rfl, -⟩
          · exact hx c h
          · show x.1 < k
            have : ¬ k < x.1 := hlt
            have : ¬ k = x.1 := hne
            omega
  · rcases mem_cellWrite hc with hc | ⟨rfl, hv⟩
    · exact h.2 c hc
    · exact ⟨hk, hv⟩

/-- A read after a write: the byte written there, the byte from before elsewhere. -/
theorem cellRead_cellWrite (j k : Nat) (v : Byte) {m : Memory} (h : Memory.wf m = true) :
    cellRead j (cellWrite k v m) = if j = k then v else cellRead j m := by
  induction m with
  | nil =>
    rw [cellWrite]
    by_cases hv : v = 0
    · simp [hv, cellRead]
    · rw [if_neg hv]
      simp only [cellRead, eq_comm]
  | cons x m ih =>
    have ih := ih (wf_tail h)
    obtain ⟨a, b⟩ := x
    obtain ⟨hx, -⟩ := List.pairwise_cons.mp ((wf_iff _).mp h).1
    have hlow : ∀ k', k' ≤ a → cellRead k' m = 0 := fun k' hk' =>
      cellRead_of_lt k' m fun c hc => lt_of_le_of_lt hk' (hx c hc)
    rw [cellWrite]
    by_cases h1 : k < a
    · rw [if_pos h1]
      by_cases hv : v = 0
      · by_cases hj : j = k
        · subst hj
          simp [hv, cellRead, hlow j (by omega), show ¬ a = j by omega]
        · simp [hv, hj]
      · rw [if_neg hv, cellRead]
        simp only [eq_comm]
    · rw [if_neg h1]
      by_cases h2 : k = a
      · subst h2
        by_cases hv : v = 0
        · by_cases hj : j = k
          · subst hj; simp [hv, hlow]
          · simp [hv, hj, cellRead, Ne.symm hj]
        · rw [if_pos rfl, if_neg hv, cellRead, cellRead]
          by_cases hj : j = k
          · simp [hj]
          · simp [hj, Ne.symm hj]
      · rw [if_neg h2, cellRead, cellRead, ih]
        by_cases hj : j = k
        · subst hj; simp [Ne.symm h2]
        · simp [hj]

/-- Canonical memories with equal reads are equal. -/
theorem memory_ext {m m' : Memory} (h : Memory.wf m = true) (h' : Memory.wf m' = true)
    (heq : ∀ k, cellRead k m = cellRead k m') : m = m' := by
  induction m generalizing m' with
  | nil =>
    cases m' with
    | nil => rfl
    | cons y m' =>
      have h2 := heq y.1
      have := ((wf_iff _).mp h').2 y (List.mem_cons_self ..)
      simp [cellRead] at h2
      exact absurd h2.symm this.2
  | cons x m ih =>
    have hx := ((wf_iff _).mp h).2 x (List.mem_cons_self ..)
    have hsx := (List.pairwise_cons.mp ((wf_iff _).mp h).1).1
    cases m' with
    | nil =>
      have h2 := heq x.1
      simp [cellRead] at h2
      exact absurd h2 hx.2
    | cons y m' =>
      have hy := ((wf_iff _).mp h').2 y (List.mem_cons_self ..)
      have hsy := (List.pairwise_cons.mp ((wf_iff _).mp h').1).1
      have hk : x.1 = y.1 := by
        by_contra hne
        rcases Nat.lt_or_gt_of_ne hne with hlt | hlt
        · have h2 := heq x.1
          rw [cellRead, if_pos rfl, cellRead, if_neg (by omega),
            cellRead_of_lt _ _ fun c hc => lt_trans hlt (hsy c hc)] at h2
          exact hx.2 h2
        · have h2 := heq y.1
          rw [cellRead, if_neg (by omega), cellRead, if_pos rfl,
            cellRead_of_lt _ _ fun c hc => lt_trans hlt (hsx c hc)] at h2
          exact hy.2 h2.symm
      have hv : x.2 = y.2 := by
        have h2 := heq x.1
        rwa [cellRead, if_pos rfl, cellRead, if_pos hk.symm] at h2
      have hm : m = m' := by
        refine ih (wf_tail h) (wf_tail h') fun k => ?_
        by_cases hkx : x.1 = k
        · rw [cellRead_of_lt k m fun c hc => hkx ▸ hsx c hc,
            cellRead_of_lt k m' fun c hc => hkx ▸ hk ▸ hsy c hc]
        · have h2 := heq k
          rwa [cellRead, if_neg hkx, cellRead, if_neg (hk ▸ hkx)] at h2
      obtain ⟨a, b⟩ := x
      obtain ⟨a', b'⟩ := y
      simp_all

/-- A word write keeps the canonical form. -/
theorem wf_memWrite4 {m : Memory} (a : BitVec 6) (v : Word) (h : Memory.wf m = true) :
    Memory.wf (memWrite4 m a v) = true := by
  unfold memWrite4
  exact wf_cellWrite _ (a + 3).isLt (wf_cellWrite _ (a + 2).isLt (wf_cellWrite _ (a + 1).isLt
    (wf_cellWrite _ a.isLt h)))

/-- Writing a block keeps the canonical form. -/
theorem wf_storeWords (i : Nat) (ws : List Word) {m : Memory} (h : Memory.wf m = true) :
    Memory.wf (storeWords i ws m) = true := by
  induction ws generalizing i m with
  | nil => exact h
  | cons w ws ih => exact ih _ (wf_memWrite4 _ _ h)

theorem wf_storeBlock (z : Block) {m : Memory} (h : Memory.wf m = true) : Memory.wf (storeBlock z m) = true :=
  wf_storeWords _ _ h

/-- The buffer's reset content is in canonical form. -/
theorem wf_reset : Memory.wf State.reset.ksb = true := rfl

/-- All that a word write does to the bytes: those of the word at its address, the others as before. -/
theorem memRead1_memWrite4 {m : Memory} (a b : BitVec 6) (v : Word) (h : Memory.wf m = true) :
    memRead1 (memWrite4 m a v) b =
      if b = a + 3 then wordByte v 3 else if b = a + 2 then wordByte v 2
      else if b = a + 1 then wordByte v 1 else if b = a then wordByte v 0 else memRead1 m b := by
  have w0 := wf_cellWrite (wordByte v 0) a.isLt h
  have w1 := wf_cellWrite (wordByte v 1) (a + 1).isLt w0
  have w2 := wf_cellWrite (wordByte v 2) (a + 2).isLt w1
  unfold memRead1 memWrite4
  rw [cellRead_cellWrite _ _ _ w2, cellRead_cellWrite _ _ _ w1, cellRead_cellWrite _ _ _ w0,
    cellRead_cellWrite _ _ _ h]
  simp only [← BitVec.toNat_inj]

end Sys2Proof.Laws
end

