-- ==== Sys2Proof/Laws/PerInstr.lean ====
section
/-! SUPPORT. A family of statements about every command as syntax: its words are its header and `NOPS` operand words
(R45, R49). -/

namespace Sys2Proof.Laws

/-- The opcode of a command. -/
def opcodeOf : Instr → Opcode
  | .init _ _ _ => .init
  | .xor _ => .xor
  | .block _ _ _ => .block

/-- R45, R49: the words of a well-formed command are its header and as many operand words as its opcode has. -/
def CommandWords.Statement (i : Instr) : Prop :=
  i.wellFormed = true →
    (encode i).head? = some (opcodeHeader (opcodeOf i)) ∧ (encode i).length = 1 + opcodeNops (opcodeOf i)

theorem CommandWords.init (key : Key) (nonce : Nonce) (ctr : U64) : CommandWords.Statement (.init key nonce ctr) :=
  fun _ => ⟨rfl, rfl⟩

theorem CommandWords.xor (len : Word) : CommandWords.Statement (.xor len) :=
  fun _ => ⟨rfl, rfl⟩

theorem CommandWords.block (key : Key) (nonce : Nonce) (ctr : U64) : CommandWords.Statement (.block key nonce ctr) :=
  fun _ => ⟨rfl, rfl⟩

end Sys2Proof.Laws
end

