-- ==== Sys2Proof/Laws/Step.lean ====
section
/-! SUPPORT. What a step can do, said once: an inversion of `step`, to be cited instead of unfolding it. -/

namespace Sys2Proof.Laws

open Sys2Proof.Machine

/-- The words the engine has taken already, at the two positions where it takes a word (R53). -/
def takenAt (s : State) (taken : List Word) : Prop :=
  (s.seq = .header ∧ taken = []) ∨
    ∃ got, s.seq = .operand got ∧ operandPosition got s = true ∧ taken = latchedWords got s

/-- The step under reset (R120). -/
theorem step_reset {s : State} (h : s.rst = true) : step s = .next (applyReset s) := by
  rw [step, if_pos h]

/-- A command in progress is taken up (R33). -/
theorem step_busy {s : State} (hr : s.rst = false) (h : fetch s = .busy) : step s = .next (resume s) := by
  rw [step, if_neg (by rw [hr]; decide), h]

theorem step_run {s t : State} {i : Instr} (hr : s.rst = false) (h : fetch s = .run i t) : step s = exec i t := by
  rw [step, if_neg (by rw [hr]; decide), h]

theorem step_idle {s t : State} (hr : s.rst = false) (h : fetch s = .idle t) : step s = .next t := by
  rw [step, if_neg (by rw [hr]; decide), h]

/-- Where a word is taken outside FAULT mode, the words taken and the words on offer are read (R53). -/
theorem fetch_eq {s : State} {taken : List Word} (hm : s.mode ≠ .fault) (h : takenAt s taken) :
    fetch s = fetchFrom taken s := by
  rcases h with ⟨hs, rfl⟩ | ⟨got, hs, hp, rfl⟩ <;> rw [fetch, hs] <;> dsimp only <;> rw [if_neg hm]
  rw [if_pos hp]

/-- What a step can come to where a word is taken: a command run, an illegal header refused, or operands awaited. -/
def tookWords (s t : State) (taken : List Word) : Prop :=
  (∃ i rest, decode (taken ++ s.cmd) = .command i rest ∧
    fetch s = .run i { s with cmd := rest, seq := .header } ∧
    exec i { s with cmd := rest, seq := .header } = .next t) ∨
  (∃ w, decode (taken ++ s.cmd) = .illegalHeader w ∧ t = refuseIllegal w { s with cmd := s.cmd.tail, seq := .header }) ∨
  (∃ w ops, decode (taken ++ s.cmd) = .operandsMissing ∧ taken ++ s.cmd = w :: ops ∧ t = latchPartial w ops s)

/-- A step where a word is taken leaves the state as it is (no word is on offer) or takes words. -/
theorem step_taking {s t : State} {taken : List Word} (hr : s.rst = false) (hm : s.mode ≠ .fault)
    (ht : takenAt s taken) (h : step s = .next t) : t = s ∨ tookWords s t taken := by
  have hf := fetch_eq hm ht
  rw [fetchFrom] at hf
  cases hd : decode (taken ++ s.cmd) with
  | command i rest =>
    rw [hd] at hf
    exact .inr (.inl ⟨i, rest, hd, hf, by rw [← h, step_run hr hf]⟩)
  | noWord =>
    rw [hd] at hf
    rw [step_idle hr hf] at h
    cases h; exact .inl rfl
  | illegalHeader w =>
    rw [hd] at hf
    rw [step_idle hr hf] at h
    cases h; exact .inr (.inr (.inl ⟨w, hd, rfl⟩))
  | operandsMissing =>
    rw [hd] at hf
    dsimp only at hf
    cases hw : taken ++ s.cmd with
    | nil =>
      rw [hw] at hf
      rw [step_idle hr hf] at h
      cases h; exact .inl rfl
    | cons w ops =>
      rw [hw] at hf
      rw [step_idle hr hf] at h
      cases h; exact .inr (.inr (.inr ⟨w, ops, hd, hw, rfl⟩))

/-- Every way a step that is no reset can go: nothing to take; a command, an illegal header, or operands still missing;
or a command in progress taken up. -/
theorem step_cases {s t : State} (hr : s.rst = false) (h : step s = .next t) :
    (t = s ∧ (s.seq = .header ∨ ∃ got, s.seq = .operand got)) ∨
    (s.mode ≠ .fault ∧ ∃ taken, takenAt s taken ∧ tookWords s t taken) ∨
    (s.seq = .din ∧ t = xorResume s) ∨
    (∃ b, s.seq = .doutXor b ∧ t = xorResumeDout b s) ∨
    (∃ bytes, s.seq = .doutBlock bytes ∧ t = blockEmit bytes s) ∨
    (∃ w, s.seq = .rsp w ∧ t = rspWrite w s) := by
  have idle : ∀ {u}, fetch s = .idle u → t = u := by
    intro u hf
    rw [step_idle hr hf] at h
    cases h; rfl
  have busy : fetch s = .busy → t = resume s := by
    intro hf
    rw [step_busy hr hf] at h
    cases h; rfl
  cases hs : s.seq with
  | header =>
    by_cases hm : s.mode = .fault
    · exact .inl ⟨idle (by rw [fetch, hs]; exact if_pos hm), .inl rfl⟩
    · rcases step_taking hr hm (.inl ⟨hs, rfl⟩) h with k | k
      · exact .inl ⟨k, .inl rfl⟩
      · exact .inr (.inl ⟨hm, [], .inl ⟨hs, rfl⟩, k⟩)
  | operand got =>
    by_cases hm : s.mode = .fault
    · exact .inl ⟨idle (by rw [fetch, hs]; exact if_pos hm), .inr ⟨got, rfl⟩⟩
    · by_cases hp : operandPosition got s = true
      · rcases step_taking hr hm (.inr ⟨got, hs, hp, rfl⟩) h with k | k
        · exact .inl ⟨k, .inr ⟨got, rfl⟩⟩
        · exact .inr (.inl ⟨hm, _, .inr ⟨got, hs, hp, rfl⟩, k⟩)
      · have hf : fetch s = .stuck .sequencer := by rw [fetch, hs]; dsimp only; rw [if_neg hm, if_neg hp]
        rw [step, if_neg (by rw [hr]; decide), hf] at h
        cases h
  | din =>
    have k := busy (by rw [fetch, hs])
    rw [resume, hs] at k
    exact .inr (.inr (.inl ⟨rfl, k⟩))
  | doutXor b =>
    have k := busy (by rw [fetch, hs])
    rw [resume, hs] at k
    exact .inr (.inr (.inr (.inl ⟨b, rfl, k⟩)))
  | doutBlock bytes =>
    have k := busy (by rw [fetch, hs])
    rw [resume, hs] at k
    exact .inr (.inr (.inr (.inr (.inl ⟨bytes, rfl, k⟩))))
  | rsp w =>
    have k := busy (by rw [fetch, hs])
    rw [resume, hs] at k
    exact .inr (.inr (.inr (.inr (.inr ⟨w, rfl, k⟩))))

end Sys2Proof.Laws
end

