-- ==== Sys2Proof/Laws/Safety.lean ====
section
/-! SUPPORT. What the words of Safety.lean come to: the end of a run (R134) seen on the outputs and in the step, and what
several block derivations leave alone. -/

namespace Sys2Proof.Laws

open Sys2Proof.Machine Sys2Proof.Safety

/-- R44, R134: a state is final exactly where the engine shows `cmd_ready` at the top of MainLoop and no word is on
offer. -/
theorem final_iff (s : State) : Final s ↔ cmdReady s = true ∧ s.seq = .header ∧ s.cmd = [] := by
  unfold Final cmdReady faultOut
  constructor
  · rintro ⟨hr, hm, hs, hc⟩
    simp [hr, hm, hs, hc]
  · rintro ⟨h, hs, hc⟩
    rw [hs] at h
    simp only [Bool.and_true, Bool.and_eq_true, Bool.not_eq_true', decide_eq_false_iff_not] at h
    exact ⟨h.1, h.2, hs, hc⟩

/-- R33, R134: a final state is quiescent: a step leaves it as it is. -/
theorem final_step {s : State} (h : Final s) : step s = .next s := by
  obtain ⟨hr, hm, hs, hc⟩ := h
  refine step_idle hr ?_
  rw [fetch_eq hm (.inl ⟨hs, rfl⟩), fetchFrom, hc]
  rfl

/-- R77: what a derivation leaves alone: everything but the buffer, CTR and OVF. -/
theorem ksgen_frame {s u : State} (h : ksgen s = some u) :
    u = { s with ksb := u.ksb, ctr := u.ctr, ovf := u.ovf } := by
  unfold ksgen at h
  split at h
  · cases h
  · cases h; rfl

/-- One derivation more, after the others. -/
theorem derivations_succ (d : Nat) (s : State) : derivations (d + 1) s = (derivations d s).bind ksgen := by
  induction d generalizing s with
  | zero => rw [derivations, derivations, Option.bind_some]; cases ksgen s <;> rfl
  | succ d ih =>
    rw [derivations, derivations, Option.bind_assoc]
    exact congrArg _ (funext ih)

/-- What derivations leave alone (R77). -/
theorem derivations_frame {d : Nat} {s u : State} (h : derivations d s = some u) :
    u = { s with ksb := u.ksb, ctr := u.ctr, ovf := u.ovf } := by
  induction d generalizing u with
  | zero => cases h; rfl
  | succ d ih =>
    rw [derivations_succ, Option.bind_eq_some_iff] at h
    obtain ⟨v, hv, hu⟩ := h
    rw [ksgen_frame hu, ih hv]

end Sys2Proof.Laws
end

