-- ==== Sys2Proof/Laws/State.lean ====
section
/-! SUPPORT. One lemma per field per update of State, so that no proof unfolds a record update. -/

namespace Sys2Proof.Laws

open Sys2Proof.Machine

/-! ### doutPut -/

@[simp] theorem doutPut_key (b : Byte) (s : State) : (doutPut b s).key = s.key := rfl
@[simp] theorem doutPut_nonce (b : Byte) (s : State) : (doutPut b s).nonce = s.nonce := rfl
@[simp] theorem doutPut_ctr (b : Byte) (s : State) : (doutPut b s).ctr = s.ctr := rfl
@[simp] theorem doutPut_ovf (b : Byte) (s : State) : (doutPut b s).ovf = s.ovf := rfl
@[simp] theorem doutPut_ksb (b : Byte) (s : State) : (doutPut b s).ksb = s.ksb := rfl
@[simp] theorem doutPut_cur (b : Byte) (s : State) : (doutPut b s).cur = s.cur := rfl
@[simp] theorem doutPut_mode (b : Byte) (s : State) : (doutPut b s).mode = s.mode := rfl
@[simp] theorem doutPut_opcL (b : Byte) (s : State) : (doutPut b s).opcL = s.opcL := rfl
@[simp] theorem doutPut_opw (b : Byte) (s : State) : (doutPut b s).opw = s.opw := rfl
@[simp] theorem doutPut_rem (b : Byte) (s : State) : (doutPut b s).rem = s.rem := rfl
@[simp] theorem doutPut_seq (b : Byte) (s : State) : (doutPut b s).seq = s.seq := rfl
@[simp] theorem doutPut_rst (b : Byte) (s : State) : (doutPut b s).rst = s.rst := rfl
@[simp] theorem doutPut_cmd (b : Byte) (s : State) : (doutPut b s).cmd = s.cmd := rfl
@[simp] theorem doutPut_din (b : Byte) (s : State) : (doutPut b s).din = s.din := rfl
@[simp] theorem doutPut_dout (b : Byte) (s : State) : (doutPut b s).dout = s.dout ++ [b] := rfl
@[simp] theorem doutPut_rsp (b : Byte) (s : State) : (doutPut b s).rsp = s.rsp := rfl
@[simp] theorem doutPut_doutTake (b : Byte) (s : State) : (doutPut b s).doutTake = s.doutTake - 1 := rfl
@[simp] theorem doutPut_rspTake (b : Byte) (s : State) : (doutPut b s).rspTake = s.rspTake := rfl

/-! ### setCounter -/

@[simp] theorem setCounter_key (c : U64) (s : State) : (setCounter c s).key = s.key := rfl
@[simp] theorem setCounter_nonce (c : U64) (s : State) : (setCounter c s).nonce = s.nonce := rfl
@[simp] theorem setCounter_ctr (c : U64) (s : State) : (setCounter c s).ctr = c := rfl
@[simp] theorem setCounter_ovf (c : U64) (s : State) : (setCounter c s).ovf = s.ovf := rfl
@[simp] theorem setCounter_ksb (c : U64) (s : State) : (setCounter c s).ksb = s.ksb := rfl
@[simp] theorem setCounter_cur (c : U64) (s : State) : (setCounter c s).cur = s.cur := rfl
@[simp] theorem setCounter_mode (c : U64) (s : State) : (setCounter c s).mode = s.mode := rfl
@[simp] theorem setCounter_opcL (c : U64) (s : State) : (setCounter c s).opcL = s.opcL := rfl
@[simp] theorem setCounter_opw (c : U64) (s : State) : (setCounter c s).opw = s.opw := rfl
@[simp] theorem setCounter_rem (c : U64) (s : State) : (setCounter c s).rem = s.rem := rfl
@[simp] theorem setCounter_seq (c : U64) (s : State) : (setCounter c s).seq = s.seq := rfl
@[simp] theorem setCounter_rst (c : U64) (s : State) : (setCounter c s).rst = s.rst := rfl
@[simp] theorem setCounter_cmd (c : U64) (s : State) : (setCounter c s).cmd = s.cmd := rfl
@[simp] theorem setCounter_din (c : U64) (s : State) : (setCounter c s).din = s.din := rfl
@[simp] theorem setCounter_dout (c : U64) (s : State) : (setCounter c s).dout = s.dout := rfl
@[simp] theorem setCounter_rsp (c : U64) (s : State) : (setCounter c s).rsp = s.rsp := rfl
@[simp] theorem setCounter_doutTake (c : U64) (s : State) : (setCounter c s).doutTake = s.doutTake := rfl
@[simp] theorem setCounter_rspTake (c : U64) (s : State) : (setCounter c s).rspTake = s.rspTake := rfl

/-! ### incCounter -/

@[simp] theorem incCounter_key (s : State) : (incCounter s).key = s.key := rfl
@[simp] theorem incCounter_nonce (s : State) : (incCounter s).nonce = s.nonce := rfl
@[simp] theorem incCounter_ctr (s : State) : (incCounter s).ctr = (inc64 s.ctr).1 := rfl
@[simp] theorem incCounter_ovf (s : State) : (incCounter s).ovf = (s.ovf || (inc64 s.ctr).2) := rfl
@[simp] theorem incCounter_ksb (s : State) : (incCounter s).ksb = s.ksb := rfl
@[simp] theorem incCounter_cur (s : State) : (incCounter s).cur = s.cur := rfl
@[simp] theorem incCounter_mode (s : State) : (incCounter s).mode = s.mode := rfl
@[simp] theorem incCounter_opcL (s : State) : (incCounter s).opcL = s.opcL := rfl
@[simp] theorem incCounter_opw (s : State) : (incCounter s).opw = s.opw := rfl
@[simp] theorem incCounter_rem (s : State) : (incCounter s).rem = s.rem := rfl
@[simp] theorem incCounter_seq (s : State) : (incCounter s).seq = s.seq := rfl
@[simp] theorem incCounter_rst (s : State) : (incCounter s).rst = s.rst := rfl
@[simp] theorem incCounter_cmd (s : State) : (incCounter s).cmd = s.cmd := rfl
@[simp] theorem incCounter_din (s : State) : (incCounter s).din = s.din := rfl
@[simp] theorem incCounter_dout (s : State) : (incCounter s).dout = s.dout := rfl
@[simp] theorem incCounter_rsp (s : State) : (incCounter s).rsp = s.rsp := rfl
@[simp] theorem incCounter_doutTake (s : State) : (incCounter s).doutTake = s.doutTake := rfl
@[simp] theorem incCounter_rspTake (s : State) : (incCounter s).rspTake = s.rspTake := rfl

/-! ### latchK -/

@[simp] theorem latchK_key (o : BitVec 8) (k : Key) (n : Nonce) (c : U64) (s : State) : (latchK o k n c s).key = s.key := rfl
@[simp] theorem latchK_nonce (o : BitVec 8) (k : Key) (n : Nonce) (c : U64) (s : State) : (latchK o k n c s).nonce = s.nonce := rfl
@[simp] theorem latchK_ctr (o : BitVec 8) (k : Key) (n : Nonce) (c : U64) (s : State) : (latchK o k n c s).ctr = s.ctr := rfl
@[simp] theorem latchK_ovf (o : BitVec 8) (k : Key) (n : Nonce) (c : U64) (s : State) : (latchK o k n c s).ovf = s.ovf := rfl
@[simp] theorem latchK_ksb (o : BitVec 8) (k : Key) (n : Nonce) (c : U64) (s : State) : (latchK o k n c s).ksb = s.ksb := rfl
@[simp] theorem latchK_cur (o : BitVec 8) (k : Key) (n : Nonce) (c : U64) (s : State) : (latchK o k n c s).cur = s.cur := rfl
@[simp] theorem latchK_mode (o : BitVec 8) (k : Key) (n : Nonce) (c : U64) (s : State) : (latchK o k n c s).mode = s.mode := rfl
@[simp] theorem latchK_opcL (o : BitVec 8) (k : Key) (n : Nonce) (c : U64) (s : State) : (latchK o k n c s).opcL = o := rfl
@[simp] theorem latchK_opw (o : BitVec 8) (k : Key) (n : Nonce) (c : U64) (s : State) : (latchK o k n c s).opw = operandsK k n c := rfl
@[simp] theorem latchK_rem (o : BitVec 8) (k : Key) (n : Nonce) (c : U64) (s : State) : (latchK o k n c s).rem = s.rem := rfl
@[simp] theorem latchK_seq (o : BitVec 8) (k : Key) (n : Nonce) (c : U64) (s : State) : (latchK o k n c s).seq = s.seq := rfl
@[simp] theorem latchK_rst (o : BitVec 8) (k : Key) (n : Nonce) (c : U64) (s : State) : (latchK o k n c s).rst = s.rst := rfl
@[simp] theorem latchK_cmd (o : BitVec 8) (k : Key) (n : Nonce) (c : U64) (s : State) : (latchK o k n c s).cmd = s.cmd := rfl
@[simp] theorem latchK_din (o : BitVec 8) (k : Key) (n : Nonce) (c : U64) (s : State) : (latchK o k n c s).din = s.din := rfl
@[simp] theorem latchK_dout (o : BitVec 8) (k : Key) (n : Nonce) (c : U64) (s : State) : (latchK o k n c s).dout = s.dout := rfl
@[simp] theorem latchK_rsp (o : BitVec 8) (k : Key) (n : Nonce) (c : U64) (s : State) : (latchK o k n c s).rsp = s.rsp := rfl
@[simp] theorem latchK_doutTake (o : BitVec 8) (k : Key) (n : Nonce) (c : U64) (s : State) : (latchK o k n c s).doutTake = s.doutTake := rfl
@[simp] theorem latchK_rspTake (o : BitVec 8) (k : Key) (n : Nonce) (c : U64) (s : State) : (latchK o k n c s).rspTake = s.rspTake := rfl

/-! ### latchL -/

@[simp] theorem latchL_key (o : BitVec 8) (len : Word) (s : State) : (latchL o len s).key = s.key := rfl
@[simp] theorem latchL_nonce (o : BitVec 8) (len : Word) (s : State) : (latchL o len s).nonce = s.nonce := rfl
@[simp] theorem latchL_ctr (o : BitVec 8) (len : Word) (s : State) : (latchL o len s).ctr = s.ctr := rfl
@[simp] theorem latchL_ovf (o : BitVec 8) (len : Word) (s : State) : (latchL o len s).ovf = s.ovf := rfl
@[simp] theorem latchL_ksb (o : BitVec 8) (len : Word) (s : State) : (latchL o len s).ksb = s.ksb := rfl
@[simp] theorem latchL_cur (o : BitVec 8) (len : Word) (s : State) : (latchL o len s).cur = s.cur := rfl
@[simp] theorem latchL_mode (o : BitVec 8) (len : Word) (s : State) : (latchL o len s).mode = s.mode := rfl
@[simp] theorem latchL_opcL (o : BitVec 8) (len : Word) (s : State) : (latchL o len s).opcL = o := rfl
@[simp] theorem latchL_opw (o : BitVec 8) (len : Word) (s : State) : (latchL o len s).opw = s.opw.set 0 len := rfl
@[simp] theorem latchL_rem (o : BitVec 8) (len : Word) (s : State) : (latchL o len s).rem = s.rem := rfl
@[simp] theorem latchL_seq (o : BitVec 8) (len : Word) (s : State) : (latchL o len s).seq = s.seq := rfl
@[simp] theorem latchL_rst (o : BitVec 8) (len : Word) (s : State) : (latchL o len s).rst = s.rst := rfl
@[simp] theorem latchL_cmd (o : BitVec 8) (len : Word) (s : State) : (latchL o len s).cmd = s.cmd := rfl
@[simp] theorem latchL_din (o : BitVec 8) (len : Word) (s : State) : (latchL o len s).din = s.din := rfl
@[simp] theorem latchL_dout (o : BitVec 8) (len : Word) (s : State) : (latchL o len s).dout = s.dout := rfl
@[simp] theorem latchL_rsp (o : BitVec 8) (len : Word) (s : State) : (latchL o len s).rsp = s.rsp := rfl
@[simp] theorem latchL_doutTake (o : BitVec 8) (len : Word) (s : State) : (latchL o len s).doutTake = s.doutTake := rfl
@[simp] theorem latchL_rspTake (o : BitVec 8) (len : Word) (s : State) : (latchL o len s).rspTake = s.rspTake := rfl

/-! ### hold -/

@[simp] theorem hold_key (q : Seq) (s : State) : (hold q s).key = s.key := rfl
@[simp] theorem hold_nonce (q : Seq) (s : State) : (hold q s).nonce = s.nonce := rfl
@[simp] theorem hold_ctr (q : Seq) (s : State) : (hold q s).ctr = s.ctr := rfl
@[simp] theorem hold_ovf (q : Seq) (s : State) : (hold q s).ovf = s.ovf := rfl
@[simp] theorem hold_ksb (q : Seq) (s : State) : (hold q s).ksb = s.ksb := rfl
@[simp] theorem hold_cur (q : Seq) (s : State) : (hold q s).cur = s.cur := rfl
@[simp] theorem hold_mode (q : Seq) (s : State) : (hold q s).mode = s.mode := rfl
@[simp] theorem hold_opcL (q : Seq) (s : State) : (hold q s).opcL = s.opcL := rfl
@[simp] theorem hold_opw (q : Seq) (s : State) : (hold q s).opw = s.opw := rfl
@[simp] theorem hold_rem (q : Seq) (s : State) : (hold q s).rem = s.rem := rfl
@[simp] theorem hold_seq (q : Seq) (s : State) : (hold q s).seq = q := rfl
@[simp] theorem hold_rst (q : Seq) (s : State) : (hold q s).rst = s.rst := rfl
@[simp] theorem hold_cmd (q : Seq) (s : State) : (hold q s).cmd = s.cmd := rfl
@[simp] theorem hold_din (q : Seq) (s : State) : (hold q s).din = s.din := rfl
@[simp] theorem hold_dout (q : Seq) (s : State) : (hold q s).dout = s.dout := rfl
@[simp] theorem hold_rsp (q : Seq) (s : State) : (hold q s).rsp = s.rsp := rfl
@[simp] theorem hold_doutTake (q : Seq) (s : State) : (hold q s).doutTake = s.doutTake := rfl
@[simp] theorem hold_rspTake (q : Seq) (s : State) : (hold q s).rspTake = s.rspTake := rfl

/-! ### dinTake -/

@[simp] theorem dinTake_key (bs : List Byte) (s : State) : (dinTake bs s).key = s.key := rfl
@[simp] theorem dinTake_nonce (bs : List Byte) (s : State) : (dinTake bs s).nonce = s.nonce := rfl
@[simp] theorem dinTake_ctr (bs : List Byte) (s : State) : (dinTake bs s).ctr = s.ctr := rfl
@[simp] theorem dinTake_ovf (bs : List Byte) (s : State) : (dinTake bs s).ovf = s.ovf := rfl
@[simp] theorem dinTake_ksb (bs : List Byte) (s : State) : (dinTake bs s).ksb = s.ksb := rfl
@[simp] theorem dinTake_cur (bs : List Byte) (s : State) : (dinTake bs s).cur = s.cur := rfl
@[simp] theorem dinTake_mode (bs : List Byte) (s : State) : (dinTake bs s).mode = s.mode := rfl
@[simp] theorem dinTake_opcL (bs : List Byte) (s : State) : (dinTake bs s).opcL = s.opcL := rfl
@[simp] theorem dinTake_opw (bs : List Byte) (s : State) : (dinTake bs s).opw = s.opw := rfl
@[simp] theorem dinTake_rem (bs : List Byte) (s : State) : (dinTake bs s).rem = s.rem := rfl
@[simp] theorem dinTake_seq (bs : List Byte) (s : State) : (dinTake bs s).seq = s.seq := rfl
@[simp] theorem dinTake_rst (bs : List Byte) (s : State) : (dinTake bs s).rst = s.rst := rfl
@[simp] theorem dinTake_cmd (bs : List Byte) (s : State) : (dinTake bs s).cmd = s.cmd := rfl
@[simp] theorem dinTake_din (bs : List Byte) (s : State) : (dinTake bs s).din = bs := rfl
@[simp] theorem dinTake_dout (bs : List Byte) (s : State) : (dinTake bs s).dout = s.dout := rfl
@[simp] theorem dinTake_rsp (bs : List Byte) (s : State) : (dinTake bs s).rsp = s.rsp := rfl
@[simp] theorem dinTake_doutTake (bs : List Byte) (s : State) : (dinTake bs s).doutTake = s.doutTake := rfl
@[simp] theorem dinTake_rspTake (bs : List Byte) (s : State) : (dinTake bs s).rspTake = s.rspTake := rfl

/-! ### cursorReset -/

@[simp] theorem cursorReset_key (s : State) : (cursorReset s).key = s.key := rfl
@[simp] theorem cursorReset_nonce (s : State) : (cursorReset s).nonce = s.nonce := rfl
@[simp] theorem cursorReset_ctr (s : State) : (cursorReset s).ctr = s.ctr := rfl
@[simp] theorem cursorReset_ovf (s : State) : (cursorReset s).ovf = s.ovf := rfl
@[simp] theorem cursorReset_ksb (s : State) : (cursorReset s).ksb = s.ksb := rfl
@[simp] theorem cursorReset_cur (s : State) : (cursorReset s).cur = 0 := rfl
@[simp] theorem cursorReset_mode (s : State) : (cursorReset s).mode = s.mode := rfl
@[simp] theorem cursorReset_opcL (s : State) : (cursorReset s).opcL = s.opcL := rfl
@[simp] theorem cursorReset_opw (s : State) : (cursorReset s).opw = s.opw := rfl
@[simp] theorem cursorReset_rem (s : State) : (cursorReset s).rem = s.rem := rfl
@[simp] theorem cursorReset_seq (s : State) : (cursorReset s).seq = s.seq := rfl
@[simp] theorem cursorReset_rst (s : State) : (cursorReset s).rst = s.rst := rfl
@[simp] theorem cursorReset_cmd (s : State) : (cursorReset s).cmd = s.cmd := rfl
@[simp] theorem cursorReset_din (s : State) : (cursorReset s).din = s.din := rfl
@[simp] theorem cursorReset_dout (s : State) : (cursorReset s).dout = s.dout := rfl
@[simp] theorem cursorReset_rsp (s : State) : (cursorReset s).rsp = s.rsp := rfl
@[simp] theorem cursorReset_doutTake (s : State) : (cursorReset s).doutTake = s.doutTake := rfl
@[simp] theorem cursorReset_rspTake (s : State) : (cursorReset s).rspTake = s.rspTake := rfl

/-! ### byteDone -/

@[simp] theorem byteDone_key (s : State) : (byteDone s).key = s.key := rfl
@[simp] theorem byteDone_nonce (s : State) : (byteDone s).nonce = s.nonce := rfl
@[simp] theorem byteDone_ctr (s : State) : (byteDone s).ctr = s.ctr := rfl
@[simp] theorem byteDone_ovf (s : State) : (byteDone s).ovf = s.ovf := rfl
@[simp] theorem byteDone_ksb (s : State) : (byteDone s).ksb = s.ksb := rfl
@[simp] theorem byteDone_cur (s : State) : (byteDone s).cur = s.cur + 1 := rfl
@[simp] theorem byteDone_mode (s : State) : (byteDone s).mode = s.mode := rfl
@[simp] theorem byteDone_opcL (s : State) : (byteDone s).opcL = s.opcL := rfl
@[simp] theorem byteDone_opw (s : State) : (byteDone s).opw = s.opw := rfl
@[simp] theorem byteDone_rem (s : State) : (byteDone s).rem = s.rem - 1 := rfl
@[simp] theorem byteDone_seq (s : State) : (byteDone s).seq = s.seq := rfl
@[simp] theorem byteDone_rst (s : State) : (byteDone s).rst = s.rst := rfl
@[simp] theorem byteDone_cmd (s : State) : (byteDone s).cmd = s.cmd := rfl
@[simp] theorem byteDone_din (s : State) : (byteDone s).din = s.din := rfl
@[simp] theorem byteDone_dout (s : State) : (byteDone s).dout = s.dout := rfl
@[simp] theorem byteDone_rsp (s : State) : (byteDone s).rsp = s.rsp := rfl
@[simp] theorem byteDone_doutTake (s : State) : (byteDone s).doutTake = s.doutTake := rfl
@[simp] theorem byteDone_rspTake (s : State) : (byteDone s).rspTake = s.rspTake := rfl

/-! ### rspWrite -/

@[simp] theorem rspWrite_key (w : Word) (s : State) : (rspWrite w s).key = s.key := by
  unfold rspWrite; split <;> rfl
@[simp] theorem rspWrite_nonce (w : Word) (s : State) : (rspWrite w s).nonce = s.nonce := by
  unfold rspWrite; split <;> rfl
@[simp] theorem rspWrite_ctr (w : Word) (s : State) : (rspWrite w s).ctr = s.ctr := by
  unfold rspWrite; split <;> rfl
@[simp] theorem rspWrite_ovf (w : Word) (s : State) : (rspWrite w s).ovf = s.ovf := by
  unfold rspWrite; split <;> rfl
@[simp] theorem rspWrite_ksb (w : Word) (s : State) : (rspWrite w s).ksb = s.ksb := by
  unfold rspWrite; split <;> rfl
@[simp] theorem rspWrite_cur (w : Word) (s : State) : (rspWrite w s).cur = s.cur := by
  unfold rspWrite; split <;> rfl
@[simp] theorem rspWrite_mode (w : Word) (s : State) : (rspWrite w s).mode = s.mode := by
  unfold rspWrite; split <;> rfl
@[simp] theorem rspWrite_opcL (w : Word) (s : State) : (rspWrite w s).opcL = s.opcL := by
  unfold rspWrite; split <;> rfl
@[simp] theorem rspWrite_opw (w : Word) (s : State) : (rspWrite w s).opw = s.opw := by
  unfold rspWrite; split <;> rfl
@[simp] theorem rspWrite_rem (w : Word) (s : State) : (rspWrite w s).rem = s.rem := by
  unfold rspWrite; split <;> rfl
@[simp] theorem rspWrite_rst (w : Word) (s : State) : (rspWrite w s).rst = s.rst := by
  unfold rspWrite; split <;> rfl
@[simp] theorem rspWrite_cmd (w : Word) (s : State) : (rspWrite w s).cmd = s.cmd := by
  unfold rspWrite; split <;> rfl
@[simp] theorem rspWrite_din (w : Word) (s : State) : (rspWrite w s).din = s.din := by
  unfold rspWrite; split <;> rfl
@[simp] theorem rspWrite_dout (w : Word) (s : State) : (rspWrite w s).dout = s.dout := by
  unfold rspWrite; split <;> rfl
@[simp] theorem rspWrite_doutTake (w : Word) (s : State) : (rspWrite w s).doutTake = s.doutTake := by
  unfold rspWrite; split <;> rfl

@[simp] theorem rspWrite_seq (w : Word) (s : State) :
    (rspWrite w s).seq = if s.rspTake = 0 then .rsp w else .header := by
  unfold rspWrite; split <;> rfl

@[simp] theorem rspWrite_rsp (w : Word) (s : State) :
    (rspWrite w s).rsp = if s.rspTake = 0 then s.rsp else s.rsp ++ [w] := by
  unfold rspWrite; split <;> rfl

@[simp] theorem rspWrite_rspTake (w : Word) (s : State) : (rspWrite w s).rspTake = s.rspTake - 1 := by
  unfold rspWrite; split <;> simp_all

/-- All that `RspWrite` does. -/
theorem rspWrite_eq (w : Word) (s : State) :
    rspWrite w s = { s with
      seq := if s.rspTake = 0 then .rsp w else .header
      rsp := if s.rspTake = 0 then s.rsp else s.rsp ++ [w]
      rspTake := s.rspTake - 1 } := by
  unfold rspWrite
  split
  · next h => simp [h, hold]
  · rfl

/-- All that taking a command does: in FAULT mode nothing (R105), else its body. -/
theorem runCommand_eq_next (body : State → State) (s : State) :
    runCommand body s = .next (if s.mode = .fault then s else body s) := by
  unfold runCommand; split <;> rfl

/-- All that the entry of `Exhausted` does (R104). -/
theorem raiseExhausted_eq (s : State) :
    raiseExhausted s = { s with
      mode := .fault
      seq := if s.rspTake = 0 then .rsp (rspWord s.opcL .exhausted) else .header
      rsp := if s.rspTake = 0 then s.rsp else s.rsp ++ [rspWord s.opcL .exhausted]
      rspTake := s.rspTake - 1 } := by
  rw [raiseExhausted, rspWrite_eq]

/-- All that an illegal header does (R51). -/
theorem refuseIllegal_eq (h : Word) (s : State) :
    refuseIllegal h s = { s with
      opcL := BitVec.extractLsb' 0 8 h
      seq := if s.rspTake = 0 then .rsp (rspWord (BitVec.extractLsb' 0 8 h) .illegal) else .header
      rsp := if s.rspTake = 0 then s.rsp else s.rsp ++ [rspWord (BitVec.extractLsb' 0 8 h) .illegal]
      rspTake := s.rspTake - 1 } := by
  rw [refuseIllegal, rspWrite_eq]

end Sys2Proof.Laws
end

