-- ==== Sys2Proof/Laws/Stream.lean ====
section
/-! SUPPORT. What the loops of XOR and BLOCK can do in one turn, what they leave alone, and that they do not read the
sequencer's position: cited instead of unfolding them. -/

namespace Sys2Proof.Laws

open Sys2Proof.Machine

/-- The state a derivation and the cursor's reset leave (R77, R81). -/
def derived (s : State) : State :=
  cursorReset (incCounter { s with ksb := storeBlock (blockFn s.key s.nonce s.ctr) s.ksb })

/-- The three ways the first part of the per-byte step can go (R81). -/
theorem refill_cases (s : State) :
    (s.cur.toNat < 64 ∧ refill s = some s) ∨
    (64 ≤ s.cur.toNat ∧ s.ovf = true ∧ refill s = none) ∨
    (64 ≤ s.cur.toNat ∧ s.ovf = false ∧ refill s = some (derived s)) := by
  unfold refill ksgen
  by_cases h : 64 ≤ s.cur.toNat
  · rw [if_pos (show Config.blockBytes ≤ s.cur.toNat from h)]
    by_cases ho : s.ovf = true
    · rw [if_pos ho]; exact .inr (.inl ⟨h, ho, rfl⟩)
    · rw [if_neg ho]; exact .inr (.inr ⟨h, by simpa using ho, rfl⟩)
  · rw [if_neg (show ¬ Config.blockBytes ≤ s.cur.toNat from h)]
    exact .inl ⟨by omega, rfl⟩

/-- A state that `refill` answers needs no further derivation. -/
theorem refill_refill {s t : State} (h : refill s = some t) : t.cur.toNat < 64 ∧ refill t = some t := by
  rcases refill_cases s with ⟨h1, h2⟩ | ⟨_, _, h2⟩ | ⟨_, _, h2⟩ <;> rw [h2] at h
  · cases h; exact ⟨h1, h2⟩
  · cases h
  · cases h; exact ⟨show (0 : BitVec 7).toNat < 64 by decide, rfl⟩

/-- `refill` commutes with every change of a field it does not touch. -/
theorem refill_map (f : State → State) (hc : ∀ s, (f s).cur = s.cur) (ho : ∀ s, (f s).ovf = s.ovf)
    (hd : ∀ s, derived (f s) = f (derived s)) (s : State) : refill (f s) = (refill s).map f := by
  rcases refill_cases s with ⟨h1, h2⟩ | ⟨h1, h3, h2⟩ | ⟨h1, h3, h2⟩ <;>
    rcases refill_cases (f s) with ⟨k1, k2⟩ | ⟨k1, k3, k2⟩ | ⟨k1, k3, k2⟩ <;>
    rw [hc] at k1 <;> (try rw [ho] at k3) <;> rw [h2, k2] <;>
    first
    | rfl
    | omega
    | exact absurd (h3.symm.trans k3) (by decide)
    | exact congrArg some (hd s)

theorem refill_hold (q : Seq) (s : State) : refill (hold q s) = (refill s).map (hold q) :=
  refill_map (hold q) (fun _ => rfl) (fun _ => rfl) (fun _ => rfl) s

theorem refill_dinTake (bs : List Byte) (s : State) : refill (dinTake bs s) = (refill s).map (dinTake bs) :=
  refill_map (dinTake bs) (fun _ => rfl) (fun _ => rfl) (fun _ => rfl) s

/-- What `refill` leaves alone (R77, R81): everything but the buffer, CTR, OVF and CUR. -/
theorem refill_frame {s t : State} (h : refill s = some t) :
    t = { s with ksb := t.ksb, ctr := t.ctr, ovf := t.ovf, cur := t.cur } := by
  rcases refill_cases s with ⟨_, h2⟩ | ⟨_, _, h2⟩ | ⟨_, _, h2⟩ <;> rw [h2] at h <;> cases h <;> rfl

/-- One turn of XOR's loop (R80, R81). -/
theorem xorLoop_succ (n : Nat) (s : State) :
    xorLoop (n + 1) s =
      match refill s with
      | none => raiseExhausted s
      | some t =>
        match t.din with
        | [] => hold .din t
        | b :: bs =>
          if t.doutTake = 0 then hold (.doutXor (b ^^^ keystreamByte t)) (dinTake bs t)
          else xorLoop n (byteDone (doutPut (b ^^^ keystreamByte t) (dinTake bs t))) := rfl

/-- What holds of a state and is kept by each turn of XOR's loop holds of every state the loop answers: `P` of the states
between turns, `Q` of the end states. -/
theorem xorLoop_induct {P : Nat → State → Prop} {Q : State → Prop}
    (done : ∀ s, P 0 s → Q (rspWrite (rspWord 0x02 .ok) s))
    (raise : ∀ n s, P (n + 1) s → refill s = none → Q (raiseExhausted s))
    (wait : ∀ n s t, P (n + 1) s → refill s = some t → t.din = [] → Q (hold .din t))
    (held : ∀ n s t b bs, P (n + 1) s → refill s = some t → t.din = b :: bs → t.doutTake = 0 →
      Q (hold (.doutXor (b ^^^ keystreamByte t)) (dinTake bs t)))
    (turn : ∀ n s t b bs, P (n + 1) s → refill s = some t → t.din = b :: bs → t.doutTake ≠ 0 →
      P n (byteDone (doutPut (b ^^^ keystreamByte t) (dinTake bs t)))) :
    ∀ n s, P n s → Q (xorLoop n s) := by
  intro n
  induction n with
  | zero => exact done
  | succ n ih =>
    intro s h
    rw [xorLoop_succ]
    cases hr : refill s with
    | none => exact raise n s h hr
    | some t =>
      cases hd : t.din with
      | nil => dsimp only; rw [hd]; exact wait n s t h hr hd
      | cons b bs =>
        dsimp only
        rw [hd]
        dsimp only
        by_cases h0 : t.doutTake = 0
        · rw [if_pos h0]; exact held n s t b bs h hr hd h0
        · rw [if_neg h0]; exact ih _ (turn n s t b bs h hr hd h0)

/-- What XOR's loop never writes. -/
theorem xorLoop_frame (n : Nat) (s : State) :
    (xorLoop n s).key = s.key ∧ (xorLoop n s).nonce = s.nonce ∧ (xorLoop n s).opcL = s.opcL ∧
    (xorLoop n s).opw = s.opw ∧ (xorLoop n s).rst = s.rst ∧ (xorLoop n s).cmd = s.cmd := by
  refine xorLoop_induct
    (P := fun _ t => t.key = s.key ∧ t.nonce = s.nonce ∧ t.opcL = s.opcL ∧ t.opw = s.opw ∧ t.rst = s.rst ∧ t.cmd = s.cmd)
    (Q := fun t => t.key = s.key ∧ t.nonce = s.nonce ∧ t.opcL = s.opcL ∧ t.opw = s.opw ∧ t.rst = s.rst ∧ t.cmd = s.cmd)
    ?_ ?_ ?_ ?_ ?_ n s ⟨rfl, rfl, rfl, rfl, rfl, rfl⟩
  · intro t h; rw [rspWrite_eq]; exact h
  · intro _ t h _; rw [raiseExhausted_eq]; exact h
  · intro _ t u h hr _; rw [refill_frame hr]; exact h
  · intro _ t u b bs h hr _ _; rw [refill_frame hr]; exact h
  · intro _ t u b bs h hr _ _; rw [refill_frame hr]; exact h

/-- The loop of XOR does not read the sequencer's position. -/
theorem xorLoop_hold (n : Nat) (q : Seq) (s : State) : xorLoop n (hold q s) = xorLoop n s := by
  induction n generalizing s with
  | zero => rw [xorLoop, xorLoop, rspWrite_eq, rspWrite_eq]; rfl
  | succ n ih =>
    rw [xorLoop_succ, xorLoop_succ, refill_hold]
    cases refill s with
    | none => rw [Option.map_none]; dsimp only; rw [raiseExhausted_eq, raiseExhausted_eq]; rfl
    | some t =>
      rw [Option.map_some]
      dsimp only
      rw [hold_din]
      cases t.din with
      | nil => rfl
      | cons b bs =>
        dsimp only
        rw [hold_doutTake]
        split
        · rfl
        · exact ih (byteDone (doutPut (b ^^^ keystreamByte t) (dinTake bs t)))

/-- Everything the emission of BLOCK can do (R90): some of the bytes have been put; either all, and the response comes, or
the host takes no more and the rest is on offer. -/
theorem blockEmit_cases (bytes : List Byte) (s : State) :
    (bytes.length ≤ s.doutTake ∧
      blockEmit bytes s
        = rspWrite (rspWord 0x03 .ok) { s with dout := s.dout ++ bytes, doutTake := s.doutTake - bytes.length }) ∨
    (s.doutTake < bytes.length ∧
      blockEmit bytes s
        = { s with
            dout := s.dout ++ bytes.take s.doutTake
            doutTake := 0
            seq := .doutBlock (bytes.drop s.doutTake) }) := by
  induction bytes generalizing s with
  | nil => exact .inl ⟨Nat.zero_le _, by simp [blockEmit]⟩
  | cons b bs ih =>
    rw [blockEmit]
    by_cases h : s.doutTake = 0
    · exact .inr ⟨by simp [h], by rw [if_pos h]; simp [hold, h]⟩
    · rw [if_neg h]
      rcases ih (doutPut b s) with ⟨h1, h2⟩ | ⟨h1, h2⟩
      · refine .inl ⟨by rw [doutPut_doutTake] at h1; rw [List.length_cons]; omega, ?_⟩
        rw [h2, List.length_cons, show s.doutTake - (bs.length + 1) = s.doutTake - 1 - bs.length by omega]
        simp [doutPut]
      · refine .inr ⟨by rw [doutPut_doutTake] at h1; rw [List.length_cons]; omega, ?_⟩
        obtain ⟨m, hm⟩ := Nat.exists_eq_succ_of_ne_zero h
        rw [h2]
        simp [doutPut, hm]

/-- The meaning of each command outside FAULT mode is its body. -/
theorem exec_init {s : State} (h : s.mode ≠ .fault) (k : Key) (n : Nonce) (c : U64) :
    exec (.init k n c) s = .next (initBody k n c s) := by
  rw [exec, execInit, runCommand_eq_next, if_neg h]

theorem exec_xor {s : State} (h : s.mode ≠ .fault) (len : Word) : exec (.xor len) s = .next (xorBody len s) := by
  rw [exec, execXor, runCommand_eq_next, if_neg h]

theorem exec_block {s : State} (h : s.mode ≠ .fault) (k : Key) (n : Nonce) (c : U64) :
    exec (.block k n c) s = .next (blockBody k n c s) := by
  rw [exec, execBlock, runCommand_eq_next, if_neg h]

/-- XOR's body in READY mode is its loop. -/
theorem xorBody_ready {s : State} (h : s.mode = .ready) (len : Word) :
    xorBody len s = xorLoop len.toNat { latchL 0x02 len s with rem := len } := by
  rw [xorBody]
  exact if_neg (by rw [latchL_mode, h]; decide)

/-- XOR's body in UNINIT mode is its refusal. -/
theorem xorBody_uninit {s : State} (h : s.mode = .uninit) (len : Word) :
    xorBody len s = rspWrite (rspWord 0x02 .noInit) (latchL 0x02 len s) := by
  rw [xorBody]
  exact if_pos (by rw [latchL_mode, h])

end Sys2Proof.Laws
end

