-- ==== Sys2Proof/Laws/Words.lean ====
section
/-! SUPPORT. Words, halves and byte lanes as numbers: the small facts behind the operand forms and the byte strings. -/

namespace Sys2Proof.Laws

open Sys2Proof.Machine

/-- A concatenation as a number. -/
theorem toNat_concat {m n : Nat} (a : BitVec m) (b : BitVec n) : (a ++ b).toNat = a.toNat * 2 ^ n + b.toNat := by
  rw [BitVec.toNat_append, ← Nat.shiftLeft_add_eq_or_of_lt b.isLt, Nat.shiftLeft_eq]

/-- A field of a word as a number. -/
theorem toNat_field {m : Nat} (a : BitVec m) (s n : Nat) : (BitVec.extractLsb' s n a).toNat = a.toNat / 2 ^ s % 2 ^ n := by
  rw [BitVec.extractLsb'_toNat, Nat.shiftRight_eq_div_pow]

theorem toNat_lo (c : U64) : (lo c).toNat = c.toNat % 2 ^ 32 := by
  rw [lo, toNat_field]; omega

theorem toNat_hi (c : U64) : (hi c).toNat = c.toNat / 2 ^ 32 := by
  rw [hi, toNat_field]; omega

theorem toNat_joinCtr (h l : Word) : (joinCtr h l).toNat = 2 ^ 32 * h.toNat + l.toNat := by
  rw [joinCtr, toNat_concat]; omega

@[simp] theorem joinCtr_hi_lo (c : U64) : joinCtr (hi c) (lo c) = c :=
  BitVec.eq_of_toNat_eq (by rw [toNat_joinCtr, toNat_hi, toNat_lo]; omega)

@[simp] theorem lo_joinCtr (h l : Word) : lo (joinCtr h l) = l :=
  BitVec.eq_of_toNat_eq (by rw [toNat_lo, toNat_joinCtr]; omega)

@[simp] theorem hi_joinCtr (h l : Word) : hi (joinCtr h l) = h :=
  BitVec.eq_of_toNat_eq (by rw [toNat_hi, toNat_joinCtr]; omega)

/-- The address of byte `j` of word `i` of the buffer does not wrap. -/
theorem toNat_lane (i : Fin 16) {j : Nat} (hj : j < 4) :
    (BitVec.ofNat 6 (4 * i.val) + BitVec.ofNat 6 j).toNat = 4 * i.val + j := by
  rw [BitVec.toNat_add, BitVec.toNat_ofNat, BitVec.toNat_ofNat]; omega

/-- Byte `4i + j` of a list of words laid out as bytes is byte `j` of word `i`. -/
theorem getD_flatten_unpack4 (ws : List Word) (i : Nat) {j : Nat} (hj : j < 4) :
    ((ws.map unpack4).flatten).getD (4 * i + j) 0 = wordByte (ws.getD i 0) j := by
  induction ws generalizing i with
  | nil => simp [wordByte]
  | cons w ws ih =>
    cases i with
    | zero => interval_cases j <;> rfl
    | succ i =>
      rw [show 4 * (i + 1) + j = (4 * i + j) + 1 + 1 + 1 + 1 by omega]
      simpa [unpack4] using ih i

theorem length_bytesOf (z : Block) : (bytesOf z).length = 64 := by
  have h : ∀ ws : List Word, ((ws.map unpack4).flatten).length = 4 * ws.length := by
    intro ws
    induction ws with
    | nil => rfl
    | cons w ws ih => rw [List.map_cons, List.flatten_cons, List.length_append, ih]; simp [unpack4]; omega
  rw [bytesOf, h, Vector.length_toList]

/-! ### The response words that occur -/

theorem rspWord_init_ok : rspWord 0x01 .ok = 0x00000100 := by decide
theorem rspWord_xor_ok : rspWord 0x02 .ok = 0x00000200 := by decide
theorem rspWord_block_ok : rspWord 0x03 .ok = 0x00000300 := by decide
theorem rspWord_xor_noInit : rspWord 0x02 .noInit = 0x00000202 := by decide
theorem rspWord_xor_exhausted : rspWord 0x02 .exhausted = 0x00000203 := by decide

end Sys2Proof.Laws
end

