-- ==== Sys2Proof/Tests/Slice0.lean ====
section
/-! SUPPORT. Tests with expected values from spec/95_test_vectors.md and the examples of the rules; the ill-formed terms
WellFormed refuses; and, for every statement with hypotheses, a state and operands that meet them. -/

namespace Sys2Proof.Tests

open Sys2Proof Sys2Proof.Machine Sys2Proof.Safety

/-! ### Helpers -/

/-- Key bytes 00 01 .. 1f as words (V6). -/
def keyA : Key := #v[0x03020100, 0x07060504, 0x0b0a0908, 0x0f0e0d0c, 0x13121110, 0x17161514, 0x1b1a1918, 0x1f1e1d1c]

/-- Nonce bytes 00 00 00 09 00 00 00 4a 00 00 00 00 as words (V6). -/
def nonceA : Nonce := #v[0x09000000, 0x4a000000, 0x00000000]

/-- A READY state with the counter, cursor and OVF of a row of V12, and a host that offers `bytes` zero bytes. -/
def readyAt (ctr : U64) (cur : BitVec 7) (ovf : Bool) (bytes takes rsps : Nat) : State :=
  { State.reset with
    mode := .ready, ctr := ctr, cur := cur, ovf := ovf, din := List.replicate bytes 0, doutTake := takes, rspTake := rsps }

/-- The reset state with words on offer and a host that takes everything. -/
def offering (words : List Word) : State := { State.reset with cmd := words, doutTake := 100, rspTake := 9 }

/-- A test on the next state; false where there is none. -/
def after (o : Host.Outcome State Fault Refusal) (p : State → Bool) : Bool :=
  match o with
  | .next t => p t
  | .fault _ => false
  | .refused _ => false

/-! ### Decoding: words written bit by bit from R45 to R49 -/

/-- R49: header 0x00000001, 13 operand words (R47's example). -/
theorem test_decode_init :
    decode [0b00000000000000000000000000000001, 0x03020100, 0x07060504, 0x0b0a0908, 0x0f0e0d0c, 0x13121110, 0x17161514,
        0x1b1a1918, 0x1f1e1d1c, 0x09000000, 0x4a000000, 0x00000000, 0x00000001, 0x00000000, 0x00000002]
      = .command (.init keyA nonceA 1) [0x00000002] := by decide

/-- R49: header 0x00000002, one operand word. -/
theorem test_decode_xor :
    decode [0b00000000000000000000000000000010, 0b00000000000000000000000000000100] = .command (.xor 4) [] := by decide

/-- R49: header 0x00000003; the counter is `2^32 * CH + CL` (R47). -/
theorem test_decode_block :
    decode [0b00000000000000000000000000000011, 0x03020100, 0x07060504, 0x0b0a0908, 0x0f0e0d0c, 0x13121110, 0x17161514,
        0x1b1a1918, 0x1f1e1d1c, 0x09000000, 0x4a000000, 0x00000000, 0x00000007, 0x00000001]
      = .command (.block keyA nonceA 0x0000000100000007) [] := by decide

/-- R51, V13: opcode 2 with `RSV = 1` is illegal. -/
theorem test_decode_reserved : decode [0b00000000000000000000000100000010, 4] = .illegalHeader 0x00000102 := by decide

theorem test_decode_illegal :
    [0x00000000, 0x00000004, 0xdeadbeef, 0xffffffff].all
      (fun h : Word => decide (decode [h] = .illegalHeader h)) = true := by decide

/-- R52: one operand word too few. -/
theorem test_decode_short : decode (0x00000001 :: List.replicate 12 0) = .operandsMissing := by decide

/-- The numbering of spec/opcode_table.json: the second word's bits count on from the first word's. -/
theorem test_table_word_xor : decodeTableWord 64 0x0000000400000002 = some (.xor 4) := by decide

/-- An operand word the table gives no bits is 0. -/
theorem test_table_word_init :
    decodeTableWord 32 0xFFFFFFFF00000001 = some (.init (Vector.replicate 8 0) (Vector.replicate 3 0) 0) := by decide

/-! ### WellFormed: every check refuses its ill-formed term (R99, R125, R56) -/

theorem test_wf_key_size : AsmLine.wellFormed (.init (List.replicate 31 0) (List.replicate 12 0) 0) = false := by decide
theorem test_wf_nonce_size : AsmLine.wellFormed (.block (List.replicate 32 0) (List.replicate 13 0) 0) = false := by decide
theorem test_wf_ctr : AsmLine.wellFormed (.init (List.replicate 32 0) (List.replicate 12 0) (2 ^ 64)) = false := by decide
theorem test_wf_len : AsmLine.wellFormed (.xor (2 ^ 32)) = false := by decide
theorem test_wf_encrypt : AsmLine.wellFormed (.encrypt (2 ^ 32)) = false := by decide
theorem test_wf_decrypt : AsmLine.wellFormed (.decrypt (2 ^ 32)) = false := by decide
theorem test_wf_word : AsmLine.wellFormed (.rawWord (2 ^ 32)) = false := by decide
theorem test_wf_xorl : AsmLine.wellFormed (.xorl (2 ^ 70 + 1)) = false := by decide
theorem test_wf_good :
    AsmLine.wellFormed (.init (List.replicate 32 0) (List.replicate 12 0) (2 ^ 64 - 1)) = true := by decide

/-- R56, R57, P5: a program's lines as words. -/
theorem test_assemble :
    assemble [.xor 4, .rawWord 0xdeadbeef, .dinBytes [0xaa], .nop]
      = some ([0x00000002, 0x00000004, 0xdeadbeef, 0x00000002, 0x00000000], [0xaa]) := by decide

/-! ### Primitives (V1) -/

theorem test_add32 :
    add32 0xFFFFFFFF 0x00000001 = 0 ∧ add32 0x80000000 0x80000000 = 0 ∧ add32 0x11111111 0x01020304 = 0x12131415 := by
  decide

theorem test_rotl :
    rotl 0x00000001 16 = 0x00010000 ∧ rotl 0x80000000 12 = 0x00000800 ∧ rotl 0x12345678 8 = 0x34567812 ∧
    rotl 0xFFFFFFFF 7 = 0xFFFFFFFF ∧ rotl 0x13305172 16 = 0x51721330 := by decide

theorem test_pack :
    pack4 0x00 0x01 0x02 0x03 = 0x03020100 ∧ pack4 0x00 0x00 0x00 0x09 = 0x09000000 ∧
    unpack4 0xE4E7F110 = [0x10, 0xf1, 0xe7, 0xe4] := by decide

theorem test_halves : lo 0x0000000100000000 = 0 ∧ hi 0x0000000100000000 = 1 := by decide

/-- V5, the five rows at a word boundary. -/
theorem test_inc64 :
    inc64 0x00000000fffffffe = (0x00000000ffffffff, false) ∧ inc64 0x00000000ffffffff = (0x0000000100000000, false) ∧
    inc64 0x12345678ffffffff = (0x1234567900000000, false) ∧ inc64 0xfffffffffffffffe = (0xffffffffffffffff, false) ∧
    inc64 0xffffffffffffffff = (0x0000000000000000, true) := by decide

/-- R55's examples. -/
theorem test_responses :
    rspWord 0x01 .ok = 0x00000100 ∧ rspWord 0x02 .noInit = 0x00000202 ∧ rspWord 0x02 .exhausted = 0x00000203 ∧
    rspWord 0xEF .illegal = 0x0000EF01 := by decide

/-! ### The permutation and the block function (V2 to V8) -/

/-- The input block of V3. -/
def blockV3 : Block :=
  #v[0x879531e0, 0xc5ecf37d, 0x516461b1, 0xc9a62f8a, 0x44c20ef3, 0x3390af7f, 0xd9fc690b, 0x2a5f714c,
    0x53372767, 0xb00a5631, 0x974c541a, 0x359e9963, 0x5c971061, 0x3d631689, 0x2098d9d6, 0x91dbd320]

theorem test_qr_v3 :
    qr 2 7 8 13 blockV3
      = #v[0x879531e0, 0xc5ecf37d, 0xbdb886dc, 0xc9a62f8a, 0x44c20ef3, 0x3390af7f, 0xd9fc690b, 0xcfacafd2,
          0xe46bea80, 0xb00a5631, 0x974c541a, 0x359e9963, 0x5c971061, 0xccc07c79, 0x2098d9d6, 0x91dbd320] := by
  decide +kernel

/-- V2, first row. -/
theorem test_qr_v2 :
    let x := qr 0 1 2 3 (#v[0x11111111, 0x01020304, 0x9b8d6f43, 0x01234567, 0, 0, 0, 0, 0, 0, 0, 0, 0, 0, 0, 0])
    x[0] = 0xea2a92f4 ∧ x[1] = 0xcb1cf8ce ∧ x[2] = 0x4581472e ∧ x[3] = 0x5881c4bb := by decide +kernel

/-- V4, first row. -/
theorem test_matrix_v4 :
    matrix keyA nonceA 1
      = #v[0x61707865, 0x3320646e, 0x79622d32, 0x6b206574, 0x03020100, 0x07060504, 0x0b0a0908, 0x0f0e0d0c,
          0x13121110, 0x17161514, 0x1b1a1918, 0x1f1e1d1c, 0x00000001, 0x09000000, 0x4a000000, 0x00000000] := by
  decide +kernel

/-- V4, the row where word 13 wraps and the row that tells addition from OR. -/
theorem test_matrix_word13 :
    (matrix keyA #v[0xffffffff, 0x4a000000, 0] 0x0000000100000000)[13] = 0 ∧
    (matrix keyA #v[0x00000001, 0, 0] 0x0000000100000000)[13] = 2 := by decide +kernel

/-- V6: after the first column pass. -/
theorem test_column_v6 :
    column (matrix keyA nonceA 1)
      = #v[0xabbaa25c, 0x1efa51ea, 0x7354fbdf, 0x83d2dc69, 0x3a465196, 0x1c7e64f6, 0xb12fb628, 0xf05b6976,
          0x6b3ca454, 0x08eb14b1, 0xbf8a9ac9, 0xe444df3b, 0xdec62ed2, 0x8862cc77, 0x6e35b345, 0x52a647f1] := by
  decide +kernel

/-- V6: after the first double round. -/
theorem test_dround_v6 :
    dround (matrix keyA nonceA 1)
      = #v[0xcd52e917, 0x85ab03b4, 0xb3457395, 0xf96de7dd, 0xc4b7cd22, 0x5c2e187a, 0xc95eb461, 0x316c801a,
          0x7bf7d740, 0x7eddd644, 0xf1a1bdf5, 0x761246ca, 0x6b0d58a3, 0x6798471a, 0xd737f167, 0xf173888d] := by
  decide +kernel

/-- V6: after PERMUTE. -/
theorem test_permute_v6 :
    permute (matrix keyA nonceA 1)
      = #v[0x837778ab, 0xe238d763, 0xa67ae21e, 0x5950bb2f, 0xc4f2d0c7, 0xfc62bb2f, 0x8fa018fc, 0x3f5ec7b7,
          0x335271c2, 0xf29489f3, 0xeabda8fc, 0x82e46ebd, 0xd19c12b4, 0xb04e16de, 0x9e83d0cb, 0x4e3c50a2] := by
  decide +kernel

/-- V6: the block's bytes, first and last sixteen. -/
theorem test_block_bytes_v6 :
    (blockBytes keyA nonceA 1).take 16
      = [0x10, 0xf1, 0xe7, 0xe4, 0xd1, 0x3b, 0x59, 0x15, 0x50, 0x0f, 0xdd, 0x1f, 0xa3, 0x20, 0x71, 0xc4] ∧
    (blockBytes keyA nonceA 1).drop 48
      = [0xb5, 0x12, 0x9c, 0xd1, 0xde, 0x16, 0x4e, 0xb9, 0xcb, 0xd0, 0x83, 0xe8, 0xa2, 0x50, 0x3c, 0x4e] := by
  decide +kernel

/-- V7: all-zero key and nonce, index 0. -/
theorem test_block_fn_v7 :
    blockFn (Vector.replicate 8 0) (Vector.replicate 3 0) 0
      = #v[0xade0b876, 0x903df1a0, 0xe56a5d40, 0x28bd8653, 0xb819d2bd, 0x1aed8da0, 0xccef36a8, 0xc70d778b,
          0x7c5941da, 0x8d485751, 0x3fe02477, 0x374ad8b8, 0xf4b8436a, 0x1ca11815, 0x69b687c3, 0x8665eeb2] := by
  decide +kernel

/-- V8: the last index, its block. -/
theorem test_block_fn_v8 :
    blockFn keyA #v[0x00000000, 0x4a000000, 0x00000000] 0xFFFFFFFFFFFFFFFF
      = #v[0x1f65e81f, 0xc2783ab0, 0x74cd39d3, 0x4d9c6bc0, 0xf19efc2b, 0xba6ebbed, 0x655bf809, 0x87afb495,
          0x50eeb9d7, 0xc6cf8d5d, 0x2cd12b0d, 0x263df9eb, 0x3c9e37eb, 0xbd16c291, 0x0dbcde51, 0x04ec1da4] := by
  decide +kernel

/-- R31: little-endian. -/
theorem test_mem_lanes :
    (let m := memWrite4 [] 4 0xE4E7F110
     memRead1 m 4 = 0x10 ∧ memRead1 m 7 = 0xE4 ∧ memRead4 m 4 = 0xE4E7F110 ∧ memRead1 m 8 = 0) := by decide

/-! ### One step per command -/

/-- R60, V13: INIT from reset. -/
theorem test_init_from_reset :
    after (step (offering [0x00000001, 0x03020100, 0x07060504, 0x0b0a0908, 0x0f0e0d0c, 0x13121110, 0x17161514, 0x1b1a1918,
        0x1f1e1d1c, 0x00000000, 0x4a000000, 0x00000000, 0xffffffff, 0x00000001]))
      (fun t => decide (t.mode = .ready ∧ t.ctr = 0x00000001ffffffff ∧ t.cur = 64 ∧ t.ovf = false ∧ t.rsp = [0x00000100] ∧
        t.key[7] = 0x1f1e1d1c ∧ t.nonce[1] = 0x4a000000 ∧ t.cmd = [])) = true := by decide

/-- R105: INIT in FAULT mode is not taken. -/
theorem test_init_in_fault :
    after (step { offering (0x00000001 :: List.replicate 13 0) with mode := .fault })
      (fun t => decide (t = { offering (0x00000001 :: List.replicate 13 0) with mode := .fault })) = true := by decide

/-- V11: the byte at the block's edge; the next block is not derived. -/
theorem test_xor_edge :
    after (exec (.xor 1) { readyAt 2 63 false 0 1 1 with ksb := [(63, 0x4e)], din := [0xff] })
      (fun t => decide (t.dout = [0xb1] ∧ t.ctr = 2 ∧ t.cur = 64 ∧ t.ovf = false ∧ t.rsp = [0x00000200])) = true := by
  decide

/-- V12, the row (0, 64, 1), LEN 2: exhaustion, no byte moved. -/
theorem test_xor_exhausted :
    after (exec (.xor 2) (readyAt 0 64 true 2 2 1))
      (fun t => decide (t.mode = .fault ∧ t.rem = 2 ∧ t.din.length = 2 ∧ t.dout = [] ∧ t.rsp = [0x00000203])) = true := by
  decide

/-- R90's example, from reset: the first bytes and the response; the Cipher State is untouched. -/
theorem test_block_from_reset :
    after (step (offering [0x00000003, 0x03020100, 0x07060504, 0x0b0a0908, 0x0f0e0d0c, 0x13121110, 0x17161514, 0x1b1a1918,
        0x1f1e1d1c, 0x09000000, 0x4a000000, 0x00000000, 0x00000001, 0x00000000]))
      (fun t => decide (t.dout.take 4 = [0x10, 0xf1, 0xe7, 0xe4] ∧ t.dout.length = 64 ∧ t.rsp = [0x00000300] ∧
        t.mode = .uninit ∧ t.ctr = 0 ∧ t.cur = 64)) = true := by decide +kernel

/-- R90: the host takes three bytes only; the fourth is on offer. -/
theorem test_block_held :
    after (exec (.block keyA nonceA 1) { State.reset with doutTake := 3 })
      (fun t => decide (t.dout = [0x10, 0xf1, 0xe7] ∧ doutOffer t = some 0xe4 ∧ t.rsp = [])) = true := by decide +kernel

/-- V13: an illegal header. -/
theorem test_illegal_step :
    after (step (offering [0xdeadbeef, 0x00000007]))
      (fun t => decide (t.rsp = [0x0000ef01] ∧ t.cmd = [0x00000007] ∧ t.opcL = 0xef ∧ t.mode = .uninit)) = true := by decide

/-- The placement of a table word: the next step takes and runs it (R80: refused in UNINIT mode). -/
theorem test_with_fetch_word :
    after (step (State.reset.withFetchWord 64 0x0000000400000002))
      (fun t => decide (t.seq = .rsp 0x00000202 ∧ t.opcL = 0x02 ∧ t.opw[0] = 4 ∧ t.cmd = List.replicate 12 0)) = true := by
  decide

/-- R134: the state after reset is final; with `rst` high it is not, nor with a word on offer, nor in FAULT mode, nor with a
response not taken. -/
theorem test_final :
    Final State.reset ∧ ¬ Final (hostSetRst true State.reset) ∧ ¬ Final (hostOfferCmd [2] State.reset) ∧
    ¬ Final { State.reset with mode := .fault } ∧ ¬ Final { State.reset with seq := .rsp 0x00000100 } := by
  unfold Final
  decide

/-! ### Witnesses: a state and operands that meet the hypotheses of each statement -/

theorem witness_DecodeOfEncode : (Instr.init keyA nonceA 0xFFFFFFFFFFFFFFFF).wellFormed = true := by decide

theorem witness_EncodeOfDecode : decode [2, 4, 9] = .command (.xor 4) [9] := by decide

/-- Format K at 12 and 13 operand words, format L at 0 and 1, and a whole command of each. -/
theorem witness_CommandLengths :
    decode (1 :: List.replicate 12 0) = .operandsMissing ∧ decode (3 :: List.replicate 12 0) = .operandsMissing ∧
    decode [2] = .operandsMissing ∧ decode [2, 0] = .command (.xor 0) [] ∧
    decode (1 :: List.replicate 13 0) = .command (.init (Vector.replicate 8 0) (Vector.replicate 3 0) 0) [] ∧
    decode (3 :: List.replicate 13 0) = .command (.block (Vector.replicate 8 0) (Vector.replicate 3 0) 0) [] := by decide

/-- Both lines of format K, at the largest counter. -/
theorem witness_KeyAndNonceByteLanes :
    let key := (List.range 32).map (BitVec.ofNat 8)
    let nonce := (List.range 12).map (BitVec.ofNat 8)
    key.length = 32 ∧ nonce.length = 12 ∧ 2 ^ 64 - 1 < 2 ^ 64 ∧
    (∃ line header, line = AsmLine.init key nonce (2 ^ 64 - 1) ∧ header = (0x00000001 : Word)) ∧
    (∃ line header, line = AsmLine.block key nonce (2 ^ 64 - 1) ∧ header = (0x00000003 : Word)) :=
  ⟨by decide, by decide, by decide, ⟨_, _, rfl, rfl⟩, ⟨_, _, rfl, rfl⟩⟩

theorem witness_LongXorAddsUp : 0 ≤ 2 ^ 70 ∧ 2 ^ 32 - 1 ≤ 2 ^ 70 ∧ 2 ^ 70 ≤ 2 ^ 70 := by decide

/-- Bit 31 goes to bit `(31 + 7) mod 32`. -/
theorem witness_RotlMovesBits : (7 = 16 ∨ 7 = 12 ∨ 7 = 8 ∨ 7 = 7) ∧ 31 < 32 ∧ (rotl 0x80000000 7).getLsbD 6 = true := by
  decide

theorem witness_QuarterRoundValues :
    (0 : Fin 16) ≠ 5 ∧ (0 : Fin 16) ≠ 10 ∧ (0 : Fin 16) ≠ 15 ∧ (5 : Fin 16) ≠ 10 ∧ (5 : Fin 16) ≠ 15 ∧ (10 : Fin 16) ≠ 15 := by
  decide

theorem witness_LanesCommute : ([0, 5, 10, 15, 1, 6, 11, 12] : List (Fin 16)).Nodup := by decide

theorem witness_MatrixDeterminesIndex :
    matrix keyA nonceA 0x0000000100000000 = matrix keyA nonceA 0x0000000100000000 := by decide

/-- The high half as a whole is moved, and nothing is. -/
theorem witness_NonceCounterAlias : (1 : Word) ≤ hi 0x0000000100000007 ∧ (0 : Word) ≤ hi 7 := by decide

/-- A listed buffer; an address outside the word. -/
theorem witness_BufferReadAfterWrite :
    Memory.wf [(3, 1), (63, 2)] = true ∧ (63 : BitVec 6).toNat / 4 ≠ (0 : Fin 16).val := by decide

/-- A string of two words. -/
theorem witness_PackUnpack : ([1, 2, 3, 4, 5, 6, 7, 8] : List Byte).length = 4 * 2 := by decide

/-- With OVF set; and both outcomes of the increment, below the wrap and at it. -/
theorem witness_DerivationResult :
    (Memory.wf (readyAt 0 64 true 0 0 0).ksb = true ∧ (readyAt 0 64 true 0 0 0).ovf = true) ∧
    (Memory.wf (readyAt 5 64 false 0 0 0).ksb = true ∧ (readyAt 5 64 false 0 0 0).ovf = false) ∧
    (Memory.wf (readyAt 0xFFFFFFFFFFFFFFFF 64 false 0 0 0).ksb = true ∧
      (readyAt 0xFFFFFFFFFFFFFFFF 64 false 0 0 0).ovf = false) := by decide

theorem witness_LastBlockThenRaise :
    (readyAt 0xFFFFFFFFFFFFFFFF 64 false 0 0 0).ovf = false ∧
    (readyAt 0xFFFFFFFFFFFFFFFF 64 false 0 0 0).ctr = 0xFFFFFFFFFFFFFFFF := by decide

/-- In UNINIT and in READY mode. -/
theorem witness_InitResult : State.reset.mode ≠ .fault ∧ (readyAt 5 10 false 0 0 1).mode ≠ .fault := by decide

theorem witness_XorRefusedUninit : State.reset.mode = .uninit := by decide

theorem witness_XorZeroLength : (readyAt 0 64 true 0 0 0).mode = .ready := by decide

/-- The cursor at the last byte of the buffer. -/
theorem witness_XorOneBufferedByte :
    (readyAt 5 63 false 1 1 0).mode = .ready ∧ (readyAt 5 63 false 1 1 0).cur < 64 ∧
    (readyAt 5 63 false 1 1 0).din = [0] ∧ (readyAt 5 63 false 1 1 0).doutTake ≠ 0 := by decide

theorem witness_XorDerivesOnDemand :
    (readyAt 5 64 false 1 1 0).mode = .ready ∧ Memory.wf (readyAt 5 64 false 1 1 0).ksb = true ∧
    (readyAt 5 64 false 1 1 0).cur = 64 ∧ (readyAt 5 64 false 1 1 0).ovf = false ∧
    (readyAt 5 64 false 1 1 0).din = [0] ∧ (readyAt 5 64 false 1 1 0).doutTake ≠ 0 := by decide

theorem witness_ExhaustedEntry :
    (readyAt 0 64 true 0 0 0).mode = .ready ∧ (readyAt 0 64 true 0 0 0).ovf = true ∧
    64 ≤ (readyAt 0 64 true 0 0 0).cur ∧ (2 : Word) ≠ 0 := by decide

/-- V12: the last length without a derivation (54 of 54 buffered), the last that is derived in full (128 bytes, two
blocks left), the first that is not (129), and none left (5 bytes, 4 buffered); READY, the host's side sufficient. -/
theorem witness_XorEndState :
    (let s := readyAt 5 10 false 54 54 1
     s.mode = .ready ∧ Memory.wf s.ksb = true ∧ s.cur ≤ 64 ∧ 54 ≤ s.din.length ∧ 54 ≤ s.doutTake ∧ s.rspTake ≠ 0 ∧
      54 ≤ buffered s) ∧
    (let s := readyAt 0xFFFFFFFFFFFFFFFE 64 false 128 128 1
     s.mode = .ready ∧ Memory.wf s.ksb = true ∧ s.cur ≤ 64 ∧ 128 ≤ s.din.length ∧ 128 ≤ s.doutTake ∧ s.rspTake ≠ 0 ∧
      buffered s < 128 ∧ needed s 128 ≤ derivable s) ∧
    (let s := readyAt 0xFFFFFFFFFFFFFFFE 64 false 129 129 1
     s.mode = .ready ∧ Memory.wf s.ksb = true ∧ s.cur ≤ 64 ∧ 129 ≤ s.din.length ∧ 129 ≤ s.doutTake ∧ s.rspTake ≠ 0 ∧
      buffered s < 129 ∧ derivable s < needed s 129) ∧
    (let s := readyAt 0 60 true 5 5 1
     s.mode = .ready ∧ Memory.wf s.ksb = true ∧ s.cur ≤ 64 ∧ 5 ≤ s.din.length ∧ 5 ≤ s.doutTake ∧ s.rspTake ≠ 0 ∧
      buffered s < 5 ∧ derivable s < needed s 5 ∧ derivable s = 0) := by decide

theorem witness_XorOutputBytes :
    (let s := readyAt 5 10 false 55 55 1
     s.mode = .ready ∧ Memory.wf s.ksb = true ∧ s.cur ≤ 64 ∧ 55 ≤ s.din.length ∧ 55 ≤ s.doutTake ∧ s.rspTake ≠ 0 ∧
      moved s 55 = 55) := by decide

/-- Up to the last block. -/
theorem witness_LifetimeKeystream :
    (let s := readyAt 5 10 false 64 64 2
     s.mode ≠ .fault ∧ Memory.wf s.ksb = true ∧ (64 : Word).toNat ≤ s.din.length ∧ (64 : Word).toNat ≤ s.doutTake ∧
      2 ≤ s.rspTake ∧ (0xFFFFFFFFFFFFFFFF : U64).toNat + ((64 : Word).toNat + 63) / 64 ≤ 2 ^ 64) := by decide

theorem witness_ChunkTransparency :
    (let s := readyAt 0 60 true 5 5 2
     s.mode = .ready ∧ (3 : Word).toNat + (2 : Word).toNat < 2 ^ 32 ∧
      (3 : Word).toNat + (2 : Word).toNat ≤ s.din.length ∧ (3 : Word).toNat + (2 : Word).toNat ≤ s.doutTake ∧
      2 ≤ s.rspTake) := by decide

theorem witness_SelfInverse :
    (let s := readyAt 0 60 true 0 4 4
     s.mode ≠ .fault ∧ Memory.wf s.ksb = true ∧ ([7, 8] : List Byte).length < 2 ^ 32 ∧
      (1 : U64).toNat + (([7, 8] : List Byte).length + 63) / 64 ≤ 2 ^ 64 ∧
      2 * ([7, 8] : List Byte).length ≤ s.doutTake ∧ 4 ≤ s.rspTake) := by decide

/-- Three bytes owed, one on offer: the XOR waits for data. -/
theorem witness_LateDataSameEnd :
    (readyAt 5 10 false 0 3 1).mode = .ready ∧ (readyAt 5 10 false 0 3 1).rst = false ∧
    after (exec (.xor 3) { readyAt 5 10 false 0 3 1 with din := [7] }) (fun t => decide (t.seq = .din)) = true := by decide

/-- The host takes one byte of three: the XOR holds the second. -/
theorem witness_LateTakingSameEnd_xor :
    (readyAt 5 10 false 3 0 1).mode = .ready ∧ (readyAt 5 10 false 3 0 1).rst = false ∧
    after (exec (.xor 3) { readyAt 5 10 false 3 0 1 with doutTake := 1 })
      (fun t => decide (t.seq = .doutXor 0)) = true := by decide

/-- The host takes 63 of the 64 bytes of BLOCK (V6): the last one is on offer. -/
theorem witness_LateTakingSameEnd_block :
    State.reset.mode ≠ .fault ∧ State.reset.rst = false ∧
    after (exec (.block keyA nonceA 1) { State.reset with doutTake := 63 })
      (fun t => decide (t.seq = .doutBlock [0x4e])) = true := by decide +kernel

/-- An XOR that holds a byte, and one that ends. -/
theorem witness_XorByteForByte :
    (readyAt 5 10 false 3 1 1).mode ≠ .fault ∧
    after (exec (.xor 3) (readyAt 5 10 false 3 1 1)) (fun t => decide (placeOf t.seq = .doutXor)) = true ∧
    after (exec (.xor 1) (readyAt 5 10 false 3 1 1)) (fun t => decide (placeOf t.seq = .header)) = true := by decide

theorem witness_XorControlIgnoresData :
    ([1, 2, 3] : List Byte).length = (readyAt 5 10 false 3 1 1).din.length ∧ (readyAt 5 10 false 3 1 1).mode ≠ .fault := by
  decide

/-- UNINIT, READY with OVF set, and within the buffer. -/
theorem witness_XorFrame :
    after (exec (.xor 3) State.reset) (fun t => decide (t.mode = .uninit)) = true ∧
    after (exec (.xor 3) (readyAt 0 61 true 3 3 1)) (fun t => decide (t.ovf = true)) = true ∧
    (3 : Word).toNat ≤ buffered (readyAt 0 61 true 3 3 1) ∧ (readyAt 0 61 true 3 3 1).ovf = true := by decide

theorem witness_BlockResult : (readyAt 5 10 false 0 64 0).mode ≠ .fault ∧ 64 ≤ (readyAt 5 10 false 0 64 0).doutTake := by
  decide

theorem witness_BlockKeepsStream :
    after (exec (.block keyA nonceA 1) (readyAt 5 10 false 0 0 0)) (fun t => decide (t.cur = 10)) = true := by
  decide +kernel

theorem witness_BlockIsStreamOfZeros :
    (let s := readyAt 5 10 false 0 64 2
     s.mode ≠ .fault ∧ Memory.wf s.ksb = true ∧ 64 ≤ s.doutTake ∧ 2 ≤ s.rspTake) := by decide

theorem witness_NoReadBack : ∀ len, Instr.block keyA nonceA 1 ≠ .xor len := fun _ h => nomatch h

theorem witness_StepRunsDecoded :
    (offering [2, 4, 9]).rst = false ∧ (offering [2, 4, 9]).mode ≠ .fault ∧ (offering [2, 4, 9]).seq = .header ∧
    decode (offering [2, 4, 9]).cmd = .command (.xor 4) [9] := by decide

/-- No operand word yet (format L) and three of thirteen (format K). -/
theorem witness_LateWordsSameCommand :
    State.reset.rst = false ∧ State.reset.mode ≠ .fault ∧ State.reset.seq = .header ∧
    after (step { State.reset with cmd := [2] }) (fun t => decide (t.seq = .operand 0)) = true ∧
    after (step { State.reset with cmd := [1, 7, 8, 9] }) (fun t => decide (t.seq = .operand 3)) = true := by decide

theorem witness_IllegalHeaderStep :
    (let s := offering [0x00000102, 4]
     s.rst = false ∧ s.mode ≠ .fault ∧ s.seq = .header ∧ s.cmd = 0x00000102 :: [4] ∧
      (0x00000102 : Word) ≠ 1 ∧ (0x00000102 : Word) ≠ 2 ∧ (0x00000102 : Word) ≠ 3) := by decide

/-- The six holds: for a header, for the thirteenth operand word of format K and the only one of format L, for a data
byte, on a byte of XOR, on a byte of BLOCK, on a response. -/
theorem witness_HoldKeepsState :
    State.reset.rst = false ∧ (State.reset.seq = .header ∧ State.reset.cmd = []) ∧
    (operandPosition 12 { State.reset with opcL := 1, seq := .operand 12 } = true ∧
      operandPosition 12 { State.reset with opcL := 3, seq := .operand 12 } = true ∧
      operandPosition 0 { State.reset with opcL := 2, seq := .operand 0 } = true ∧ State.reset.mode ≠ .fault) ∧
    (let s := { readyAt 5 63 false 0 0 0 with seq := .din, rem := 1, opcL := 2 }
     s.seq = .din ∧ s.din = [] ∧ s.cur < 64 ∧ s.rem ≠ 0) ∧
    (let s := { readyAt 5 63 false 0 0 0 with seq := .doutXor 7, rem := 1, opcL := 2 }
     s.seq = .doutXor 7 ∧ s.doutTake = 0) ∧
    (let s := { State.reset with seq := .doutBlock [7], opcL := 3 }
     s.seq = .doutBlock (7 :: []) ∧ s.doutTake = 0) ∧
    (let s := { State.reset with seq := .rsp 0x00000001 }
     s.seq = .rsp 0x00000001 ∧ s.rspTake = 0) := by decide

theorem witness_ResponseTaken :
    (let s := { State.reset with seq := .rsp 0x00000001, rspTake := 1 }
     s.rst = false ∧ s.seq = .rsp 0x00000001 ∧ s.rspTake ≠ 0) := by decide

/-- FAULT mode with a command on offer (V12's row (0, 64, 1) after the exception). -/
theorem witness_FaultHoldsForever :
    (let s := { readyAt 0 64 true 2 2 1 with mode := .fault, cmd := [2, 0] }
     s.mode = .fault ∧ s.seq = .header ∧ s.rst = false) := by decide

theorem witness_FaultTakesNoCommand : ({ State.reset with mode := .fault } : State).mode = .fault := by decide

/-- A READY state about to take an XOR that exhausts the counter, in the invariant. -/
def exhausting : State := { readyAt 0 64 true 2 2 1 with cmd := [2, 1] }

theorem exhausting_inv : Inv exhausting where
  memory := by decide
  cursor := by decide
  wrapped := by decide
  buffer := fun _ h => absurd h (by decide)
  uninit := fun h => nomatch h
  faulted := fun h => nomatch h
  sequencer := trivial

/-- Each clause: FAULT kept, UNINIT kept, READY entered by INIT, FAULT entered from READY. -/
theorem witness_ModeTransitions :
    after (step { exhausting with mode := .fault }) (fun t => decide (t.mode = .fault)) = true ∧
    after (step (offering [2, 4])) (fun t => decide (t.mode = .uninit)) = true ∧
    after (step (offering (1 :: List.replicate 13 5))) (fun t => decide (t.mode = .ready)) = true ∧
    (Inv exhausting ∧ exhausting.rst = false ∧ after (step exhausting) (fun t => decide (t.mode = .fault)) = true) :=
  ⟨by decide, by decide, by decide, exhausting_inv, by decide, by decide⟩

/-- A READY state about to take an XOR that derives the last block, in the invariant. -/
def wrapping : State := { readyAt 0xFFFFFFFFFFFFFFFF 64 false 2 2 1 with cmd := [2, 1] }

theorem wrapping_inv : Inv wrapping where
  memory := by decide
  cursor := by decide
  wrapped := fun h => nomatch h
  buffer := fun _ h => absurd h (by decide)
  uninit := fun h => nomatch h
  faulted := fun h => nomatch h
  sequencer := trivial

/-- Both sides: a step of INIT; steps of XOR in the invariant, one with no derivation left, one whose only derivation is at
the wrap (V12): CTR 0, OVF 1, one byte used. -/
theorem witness_LifetimeFixed :
    after (step (offering (1 :: List.replicate 13 5))) (fun t => decide (t.ctr = 0x0000000500000005)) = true ∧
    (Inv exhausting ∧ exhausting.rst = false ∧ after (step exhausting) (fun t => decide (t.ctr = 0)) = true) ∧
    (Inv wrapping ∧ wrapping.rst = false ∧
      after (step wrapping) (fun t => decide (t.ctr = 0 ∧ t.ovf = true ∧ t.cur = 1 ∧ t.dout.length = 1 ∧ t.opcL = 2)) = true) :=
  ⟨by decide, ⟨exhausting_inv, by decide, by decide⟩, wrapping_inv, by decide, by decide +kernel⟩

theorem witness_OneResponsePerCommand : exhausting.mode ≠ .fault := by decide

/-- A step that moves items on all four channels. -/
theorem witness_TransfersStand :
    after (step { readyAt 5 10 false 3 3 1 with cmd := [2, 1] })
      (fun t => decide (t.dout = [0] ∧ t.rsp = [0x00000200] ∧ t.din.length = 2 ∧ t.cmd = [])) = true := by decide

theorem witness_ResetEdge : ({ exhausting with rst := true } : State).rst = true := by decide

theorem witness_OnePrimitiveAtATime :
    ({ exhausting with mode := .fault } : State).mode = .fault ∧ exhausting.seq = .header := by decide

/-- Each clause: a response on offer, a byte of XOR, a byte of BLOCK, operands awaited. -/
theorem witness_ChannelOrder :
    after (step { exhausting with seq := .rsp 0x00000200 }) (fun t => decide (t.seq = .header)) = true ∧
    after (step { readyAt 5 10 false 1 0 1 with seq := .doutXor 7, rem := 1 }) (fun t => decide (t.seq = .doutXor 7)) = true ∧
    after (step { State.reset with seq := .doutBlock [7] }) (fun t => decide (t.seq = .doutBlock [7])) = true ∧
    after (step { State.reset with cmd := [1, 7] }) (fun t => decide (t.seq = .operand 1)) = true := by decide

theorem witness_StepKeepsInvariant :
    Inv exhausting ∧ after (step exhausting) (fun t => decide (t.mode = .fault)) = true :=
  ⟨exhausting_inv, by decide⟩

theorem witness_StepAlwaysAnswers : Inv exhausting := exhausting_inv

/-- A READY state whose buffer holds block 0 and whose cursor stands at its last byte. -/
def buffering : State :=
  { readyAt 1 63 false 0 0 0 with ksb := storeBlock (blockFn State.reset.key State.reset.nonce 0) [] }

theorem witness_BufferHoldsBlock : Inv buffering ∧ buffering.mode = .ready ∧ buffering.cur < 64 :=
  ⟨{ memory := by decide +kernel
     cursor := by decide
     wrapped := fun h => nomatch h
     buffer := fun _ _ => by decide +kernel
     uninit := fun h => nomatch h
     faulted := fun h => nomatch h
     sequencer := trivial }, by decide, by decide⟩

end Sys2Proof.Tests
end

section
/-! PROOFS. The arithmetic primitives of 00_scope section 6: rotation (R3) and byte packing (R5). -/

namespace Sys2Proof.Proofs

open Sys2Proof.Machine Sys2Proof.Laws

/-! ### Rotation (R3) -/

/-- Bit `i` comes out of the left shift where `i + n` stays in the word, and out of the right shift where it wraps. -/
theorem getLsbD_rotl (v : Word) {n i : Nat} (hn : n ≤ 32) (hi : i < 32) :
    (rotl v n).getLsbD ((i + n) % 32) = v.getLsbD i := by
  rw [rotl, BitVec.getLsbD_or, BitVec.getLsbD_shiftLeft, BitVec.getLsbD_ushiftRight]
  by_cases hw : i + n < 32
  · have hright : v.getLsbD (32 - n + (i + n)) = false := BitVec.getLsbD_of_ge v _ (by omega)
    rw [Nat.mod_eq_of_lt hw, hright]
    simp [hw]
  · have hpos : (i + n) % 32 = i + n - 32 := by omega
    have hleft : i + n - 32 < n := by omega
    have hright : 32 - n + (i + n - 32) = i := by omega
    rw [hpos, hright]
    simp [hleft]

/-- Settles O9: the law holds of every amount up to the word's width, the four that occur among them. -/
theorem rotlMovesBits : Obligations.RotlMovesBits := by
  intro v n hn i hi
  exact getLsbD_rotl v (by omega) hi

/-! ### Byte packing (R5) -/

theorem toNat_pack4 (b0 b1 b2 b3 : Byte) :
    (pack4 b0 b1 b2 b3).toNat = b0.toNat + 2 ^ 8 * b1.toNat + 2 ^ 16 * b2.toNat + 2 ^ 24 * b3.toNat := by
  rw [pack4, toNat_concat, toNat_concat, toNat_concat]; omega

theorem toNat_wordByte (w : Word) (j : Nat) : (wordByte w j).toNat = w.toNat / 2 ^ (8 * j) % 2 ^ 8 :=
  toNat_field w (8 * j) 8

@[simp] theorem wordByte_pack4 (b0 b1 b2 b3 : Byte) {j : Nat} (hj : j < 4) :
    wordByte (pack4 b0 b1 b2 b3) j = [b0, b1, b2, b3].getD j 0 := by
  apply BitVec.eq_of_toNat_eq
  rw [toNat_wordByte, toNat_pack4]
  interval_cases j <;> simp only [List.getD_cons_zero, List.getD_cons_succ] <;> omega

@[simp] theorem unpack4_pack4 (b0 b1 b2 b3 : Byte) : unpack4 (pack4 b0 b1 b2 b3) = [b0, b1, b2, b3] := by
  simp [unpack4]

@[simp] theorem pack4_wordByte (w : Word) :
    pack4 (wordByte w 0) (wordByte w 1) (wordByte w 2) (wordByte w 3) = w :=
  BitVec.eq_of_toNat_eq (by
    simp only [toNat_pack4, toNat_wordByte]; omega)

theorem getElem_wordsOf {k : Nat} (bytes : List Byte) (i : Fin k) :
    (wordsOf k bytes)[i] = pack4 (bytes.getD (4 * i.val) 0) (bytes.getD (4 * i.val + 1) 0)
      (bytes.getD (4 * i.val + 2) 0) (bytes.getD (4 * i.val + 3) 0) :=
  Vector.getElem_ofFn i.isLt

/-- Settles O10: both directions of the packing compare the words as numbers; the words of a string are packed by
definition. -/
theorem packUnpack : Obligations.PackUnpack :=
  ⟨fun b0 b1 b2 b3 => ⟨toNat_pack4 b0 b1 b2 b3, unpack4_pack4 b0 b1 b2 b3⟩, pack4_wordByte,
    fun _ bytes i _ => getElem_wordsOf bytes i⟩

end Sys2Proof.Proofs
end

section
/-! PROOFS. What a derivation leaves in the buffer and in the counter (R17, R31, R76, R77): the buffer's bytes and words
after a word write and after a block write, and the increment as a sum. -/

namespace Sys2Proof.Proofs

open Sys2Proof.Machine Sys2Proof.Laws

/-! ### The buffer by words and byte lanes (R17, R31) -/

/-- A 6-bit address is byte `j` of word `i` exactly where its number is `4i + j`. -/
theorem eq_lane_iff (a : BitVec 6) {i j : Nat} (hi : i < 16) (hj : j < 4) :
    a = BitVec.ofNat 6 (4 * i) + BitVec.ofNat 6 j ↔ a.toNat = 4 * i + j := by
  rw [← BitVec.toNat_inj, toNat_lane ⟨i, hi⟩ hj]

/-- A word write by byte lanes: the bytes of the word written, and every other byte as before. -/
theorem memRead1_memWrite4_lane {m : Memory} {i : Nat} (hi : i < 16) (v : Word) (a : BitVec 6)
    (hm : Memory.wf m = true) :
    memRead1 (memWrite4 m (BitVec.ofNat 6 (4 * i)) v) a =
      if a.toNat / 4 = i then wordByte v (a.toNat % 4) else memRead1 m a := by
  have lane : ∀ j, j < 4 → (a = BitVec.ofNat 6 (4 * i) + BitVec.ofNat 6 j ↔ a.toNat = 4 * i + j) :=
    fun j hj => eq_lane_iff a hi hj
  have h0 : a = BitVec.ofNat 6 (4 * i) ↔ a.toNat = 4 * i := by simpa using lane 0 (by decide)
  have h1 : a = BitVec.ofNat 6 (4 * i) + 1 ↔ a.toNat = 4 * i + 1 := lane 1 (by decide)
  have h2 : a = BitVec.ofNat 6 (4 * i) + 2 ↔ a.toNat = 4 * i + 2 := lane 2 (by decide)
  have h3 : a = BitVec.ofNat 6 (4 * i) + 3 ↔ a.toNat = 4 * i + 3 := lane 3 (by decide)
  rw [memRead1_memWrite4 _ _ _ hm]
  simp only [h0, h1, h2, h3]
  by_cases hw : a.toNat / 4 = i
  · rw [if_pos hw]
    obtain hj | hj | hj | hj : a.toNat % 4 = 0 ∨ a.toNat % 4 = 1 ∨ a.toNat % 4 = 2 ∨ a.toNat % 4 = 3 := by omega
    all_goals
      have ha : a.toNat = 4 * i + a.toNat % 4 := by omega
      rw [ha, hj]
      simp
  · rw [if_neg hw, if_neg (by omega), if_neg (by omega), if_neg (by omega), if_neg (by omega)]

/-- Words stored one after the other, by byte lanes. -/
theorem memRead1_storeWords (ws : List Word) {i : Nat} {m : Memory} (a : BitVec 6) (hi : i + ws.length ≤ 16)
    (hm : Memory.wf m = true) :
    memRead1 (storeWords i ws m) a =
      if i ≤ a.toNat / 4 ∧ a.toNat / 4 < i + ws.length then wordByte (ws.getD (a.toNat / 4 - i) 0) (a.toNat % 4)
      else memRead1 m a := by
  induction ws generalizing i m with
  | nil => rw [storeWords, if_neg (by simp only [List.length_nil]; omega)]
  | cons w ws ih =>
    rw [List.length_cons] at hi ⊢
    rw [storeWords, ih (by omega) (wf_memWrite4 _ _ hm), memRead1_memWrite4_lane (by omega) _ _ hm]
    obtain h | h | h : a.toNat / 4 < i ∨ a.toNat / 4 = i ∨ i < a.toNat / 4 := by omega
    · rw [if_neg (by omega), if_neg (by omega), if_neg (by omega)]
    · rw [if_neg (by omega), if_pos h, if_pos (by omega), h, Nat.sub_self, List.getD_cons_zero]
    · rw [if_neg (show ¬ a.toNat / 4 = i by omega), show a.toNat / 4 - i = (a.toNat / 4 - (i + 1)) + 1 by omega,
        List.getD_cons_succ]
      exact if_congr (by omega) rfl rfl

/-- R78: byte `a` of a block laid out as bytes is byte `a mod 4` of its word `a div 4`. -/
theorem getD_bytesOf (z : Block) (a : Nat) : (bytesOf z).getD a 0 = wordByte (z.toList.getD (a / 4) 0) (a % 4) := by
  conv_lhs => rw [← Nat.div_add_mod a 4]
  exact getD_flatten_unpack4 _ _ (Nat.mod_lt _ (by decide))

/-- R77, R78: the bytes of the buffer after a block write are those of the block. -/
theorem memRead1_storeBlock (z : Block) {m : Memory} (a : BitVec 6) (hm : Memory.wf m = true) :
    memRead1 (storeBlock z m) a = (bytesOf z).getD a.toNat 0 := by
  have hlen : z.toList.length = 16 := Vector.length_toList
  rw [storeBlock, memRead1_storeWords _ _ (by omega) hm, if_pos (by omega), Nat.sub_zero, getD_bytesOf]

/-- A word of the buffer by its four bytes, the addresses as numbers. -/
theorem wordByte_ksWord (s : State) (i : Fin 16) {j : Nat} (hj : j < 4) :
    wordByte (ksWord s i) j = memRead1 s.ksb (BitVec.ofNat 6 (4 * i.val + j)) := by
  have haddr : BitVec.ofNat 6 (4 * i.val + j) = BitVec.ofNat 6 (4 * i.val) + BitVec.ofNat 6 j := BitVec.ofNat_add ..
  rw [ksWord, memRead4, wordByte_pack4 _ _ _ _ hj, haddr]
  interval_cases j
  · simp
  all_goals rfl

/-- Words with equal bytes are equal. -/
theorem eq_of_wordByte {v w : Word} (h : ∀ j, j < 4 → wordByte v j = wordByte w j) : v = w := by
  rw [← pack4_wordByte v, ← pack4_wordByte w, h 0 (by decide), h 1 (by decide), h 2 (by decide), h 3 (by decide)]

/-- R17, R31: the buffer's words are those of a block exactly where its bytes are those of the block. -/
theorem ksWord_eq_iff (s : State) (z : Block) :
    (∀ i : Fin 16, ksWord s i = z[i]) ↔ ∀ a : BitVec 6, memRead1 s.ksb a = (bytesOf z).getD a.toNat 0 := by
  have word : ∀ i : Fin 16, z.toList.getD i.val 0 = z[i] := fun i => by
    rw [List.getD_eq_getElem _ _ (by simp), Vector.getElem_toList]; rfl
  constructor
  · intro h a
    have hk := wordByte_ksWord s ⟨a.toNat / 4, by omega⟩ (Nat.mod_lt a.toNat (by decide : 4 > 0))
    rw [h, ← word, Nat.div_add_mod, BitVec.ofNat_toNat, BitVec.setWidth_eq] at hk
    rw [← hk, getD_bytesOf]
  · intro h i
    refine eq_of_wordByte fun j hj => ?_
    rw [wordByte_ksWord s i hj, h, BitVec.toNat_ofNat, Nat.mod_eq_of_lt (by omega), getD_bytesOf, ← word,
      show (4 * i.val + j) / 4 = i.val by omega, show (4 * i.val + j) % 4 = j by omega]

/-- R77: the words of the buffer after a block write are those of the block. -/
theorem ksWord_of_storeBlock {s : State} {z : Block} {m : Memory} (hs : s.ksb = storeBlock z m)
    (hm : Memory.wf m = true) (i : Fin 16) : ksWord s i = z[i] :=
  (ksWord_eq_iff s z).2 (fun a => by rw [hs, memRead1_storeBlock z a hm]) i

/-! ### The counter (R76) -/

/-- R76: the increment through the two halves is the sum modulo 2^64, and the wrap is at the last index. -/
theorem inc64_eq (c : U64) : inc64 c = (c + 1, decide (c = 0xFFFFFFFFFFFFFFFF)) := by
  have sum : ∀ w : Word, (add32 w 1).toNat = (w.toNat + 1) % 2 ^ 32 := fun w => by rw [add32, BitVec.toNat_add]; rfl
  have next : (c + 1).toNat = (c.toNat + 1) % 2 ^ 64 := by rw [BitVec.toNat_add]; rfl
  have zero : (0 : Word).toNat = 0 := rfl
  have hlo : add32 (lo c) 1 = 0 ↔ c.toNat % 2 ^ 32 = 2 ^ 32 - 1 := by
    rw [← BitVec.toNat_inj, sum, toNat_lo, zero]; omega
  have hhi : add32 (hi c) 1 = 0 ↔ c.toNat / 2 ^ 32 = 2 ^ 32 - 1 := by
    rw [← BitVec.toNat_inj, sum, toNat_hi, zero]; omega
  have hmax : c = 0xFFFFFFFFFFFFFFFF ↔ c.toNat = 2 ^ 64 - 1 := BitVec.toNat_inj.symm
  rw [inc64]
  dsimp only
  split
  · next h =>
    have hl := hlo.1 h
    refine Prod.ext (BitVec.eq_of_toNat_eq ?_) ?_
    · rw [toNat_joinCtr, h, sum, toNat_hi, next, zero]; omega
    · exact decide_eq_decide.2 (by rw [hhi, hmax]; omega)
  · next h =>
    have hl : ¬ c.toNat % 2 ^ 32 = 2 ^ 32 - 1 := fun k => h (hlo.2 k)
    refine Prod.ext (BitVec.eq_of_toNat_eq ?_) ?_
    · rw [toNat_joinCtr, sum, toNat_hi, toNat_lo, next]; omega
    · exact (decide_eq_false (by rw [hmax]; omega)).symm

end Sys2Proof.Proofs
end

section
/-! PROOFS. The Cipher State under the operations that leave it alone (R27), the part of the invariant that speaks of it,
and the position of the sequencer (R24): the frame lemmas every proof about a whole step is put together from. -/

namespace Sys2Proof.Proofs

open Sys2Proof.Machine Sys2Proof.Safety Sys2Proof.Laws

/-! ### Operations that leave the Cipher State and MODE alone (R27) -/

/-- The registers of the Cipher State, the buffer and MODE are the same in both states. -/
structure CipherKept (s t : State) : Prop where
  key : t.key = s.key
  nonce : t.nonce = s.nonce
  ctr : t.ctr = s.ctr
  ovf : t.ovf = s.ovf
  ksb : t.ksb = s.ksb
  cur : t.cur = s.cur
  mode : t.mode = s.mode

theorem CipherKept.trans {s t u : State} (h : CipherKept s t) (k : CipherKept t u) : CipherKept s u where
  key := k.key.trans h.key
  nonce := k.nonce.trans h.nonce
  ctr := k.ctr.trans h.ctr
  ovf := k.ovf.trans h.ovf
  ksb := k.ksb.trans h.ksb
  cur := k.cur.trans h.cur
  mode := k.mode.trans h.mode

theorem rspWrite_cipherKept (w : Word) (s : State) : CipherKept s (rspWrite w s) := by constructor <;> simp

theorem hold_cipherKept (q : Seq) (s : State) : CipherKept s (hold q s) := ⟨rfl, rfl, rfl, rfl, rfl, rfl, rfl⟩

theorem dinTake_cipherKept (bs : List Byte) (s : State) : CipherKept s (dinTake bs s) :=
  ⟨rfl, rfl, rfl, rfl, rfl, rfl, rfl⟩

theorem latchK_cipherKept (o : BitVec 8) (k : Key) (n : Nonce) (c : U64) (s : State) :
    CipherKept s (latchK o k n c s) := ⟨rfl, rfl, rfl, rfl, rfl, rfl, rfl⟩

theorem latchL_cipherKept (o : BitVec 8) (len : Word) (s : State) : CipherKept s (latchL o len s) :=
  ⟨rfl, rfl, rfl, rfl, rfl, rfl, rfl⟩

theorem refuseIllegal_cipherKept (w : Word) (s : State) : CipherKept s (refuseIllegal w s) := by
  rw [refuseIllegal_eq]; exact ⟨rfl, rfl, rfl, rfl, rfl, rfl, rfl⟩

theorem latchPartial_cipherKept (w : Word) (ops : List Word) (s : State) : CipherKept s (latchPartial w ops s) :=
  ⟨rfl, rfl, rfl, rfl, rfl, rfl, rfl⟩

theorem blockEmit_cipherKept (bytes : List Byte) (s : State) : CipherKept s (blockEmit bytes s) := by
  rcases blockEmit_cases bytes s with ⟨-, h⟩ | ⟨-, h⟩ <;> rw [h]
  · constructor <;> simp
  · exact ⟨rfl, rfl, rfl, rfl, rfl, rfl, rfl⟩

theorem blockBody_cipherKept (k : Key) (n : Nonce) (c : U64) (s : State) : CipherKept s (blockBody k n c s) :=
  (latchK_cipherKept 0x03 k n c s).trans (blockEmit_cipherKept _ _)

theorem xorBody_uninit_cipherKept {s : State} (h : s.mode = .uninit) (len : Word) : CipherKept s (xorBody len s) := by
  rw [xorBody_uninit h]
  exact (latchL_cipherKept 0x02 len s).trans (rspWrite_cipherKept _ _)

/-! ### The invariant in two parts -/

/-- The part of the invariant that speaks of the Cipher State and MODE alone (R18 to R21, R31, R104). -/
structure CipherInv (s : State) : Prop where
  memory : Memory.wf s.ksb = true
  cursor : s.cur ≤ 64
  wrapped : s.ovf = true → s.ctr = 0
  buffer : s.mode = .ready → s.cur < 64 → ∀ i : Fin 16, ksWord s i = (blockFn s.key s.nonce (s.ctr - 1))[i]
  uninit : s.mode = .uninit → CipherReset s
  exhausted : s.mode = .fault → s.ovf = true ∧ s.cur = 64

/-- In FAULT mode a position that fits is the top of MainLoop or the response on offer (R105). -/
theorem seq_of_fault {s : State} (h : SeqFits s) (hm : s.mode = .fault) : s.seq = .header ∨ ∃ w, s.seq = .rsp w := by
  unfold SeqFits at h
  split at h
  · next hs => exact .inl hs
  · exact absurd hm h.1
  · exact absurd (hm.symm.trans h.1) (by decide)
  · exact absurd (hm.symm.trans h.1) (by decide)
  · exact absurd hm h.1
  · next w hs => exact .inr ⟨w, hs⟩

/-- The invariant is its part about the Cipher State and the fit of the sequencer's position. -/
theorem inv_iff {s : State} : Inv s ↔ CipherInv s ∧ SeqFits s := by
  constructor
  · rintro ⟨hmem, hcur, hwrap, hbuf, huninit, hfault, hseq⟩
    exact ⟨⟨hmem, hcur, hwrap, hbuf, huninit, fun hm => ⟨(hfault hm).1, (hfault hm).2.1⟩⟩, hseq⟩
  · rintro ⟨⟨hmem, hcur, hwrap, hbuf, huninit, hexh⟩, hseq⟩
    exact ⟨hmem, hcur, hwrap, hbuf, huninit, fun hm => ⟨(hexh hm).1, (hexh hm).2, seq_of_fault hseq hm⟩, hseq⟩

/-- What leaves the Cipher State alone keeps the part of the invariant that speaks of it. -/
theorem CipherInv.of_kept {s t : State} (h : CipherInv s) (k : CipherKept s t) : CipherInv t := by
  obtain ⟨hkey, hnonce, hctr, hovf, hksb, hcur, hmode⟩ := k
  have hword : ∀ i, ksWord t i = ksWord s i := fun i => by rw [ksWord, ksWord, hksb]
  constructor
  · rw [hksb]; exact h.memory
  · rw [hcur]; exact h.cursor
  · rw [hovf, hctr]; exact h.wrapped
  · simp only [hmode, hcur, hword, hkey, hnonce, hctr]; exact h.buffer
  · simp only [CipherReset, hmode, hkey, hnonce, hctr, hovf, hksb, hcur]; exact h.uninit
  · rw [hmode, hovf, hcur]; exact h.exhausted

/-- After `RspWrite` of a status that fits MODE the invariant holds again: the response is on offer, or the engine is at
the top of MainLoop (R55, R104). -/
theorem rspWrite_inv {s : State} (h : CipherInv s) (st : Status) (hst : st = .exhausted ↔ s.mode = .fault) :
    Inv (rspWrite (rspWord s.opcL st) s) := by
  refine inv_iff.2 ⟨h.of_kept (rspWrite_cipherKept _ s), ?_⟩
  unfold SeqFits
  rw [rspWrite_seq]
  by_cases h0 : s.rspTake = 0
  · rw [if_pos h0]; exact ⟨st, by rw [rspWrite_opcL], by rw [rspWrite_mode]; exact hst⟩
  · rw [if_neg h0]; trivial

/-- What leaves the Cipher State and MODE alone and ends at a position that fits keeps the invariant. -/
theorem CipherInv.inv {s t : State} (h : CipherInv s) (k : CipherKept s t) (hseq : SeqFits t) : Inv t :=
  inv_iff.2 ⟨h.of_kept k, hseq⟩

end Sys2Proof.Proofs
end

section
/-! PROOFS. The invariant of the engine (R16, R18 to R21, R24, R31, R104, R105): it holds at reset and every step
keeps it. -/

namespace Sys2Proof.Proofs

open Sys2Proof.Machine Sys2Proof.Safety Sys2Proof.Laws

/-! ### Reset (R29, R120) -/

/-- Settles O57: at reset nothing is buffered, so that only the registers of UNINIT mode are to be compared. -/
theorem resetMeetsInvariant : Obligations.ResetMeetsInvariant where
  memory := wf_reset
  cursor := by decide
  wrapped := fun h => nomatch h
  buffer := fun h => nomatch h
  uninit := fun _ => ⟨rfl, rfl, rfl, rfl, rfl, rfl⟩
  faulted := fun h => nomatch h
  sequencer := trivial

theorem applyReset_inv (s : State) : Inv (applyReset s) :=
  (inv_iff.1 resetMeetsInvariant).1.inv (s := State.reset) ⟨rfl, rfl, rfl, rfl, rfl, rfl, rfl⟩ trivial

/-! ### XOR (R80, R81) -/

/-- R19, R76, R77: a derivation leaves the block of index CTR - 1 in the buffer, and a wrapped counter is 0. -/
theorem derived_cipherInv {s : State} (h : CipherInv s) (hm : s.mode = .ready) (ho : s.ovf = false) :
    CipherInv (derived s) where
  memory := wf_storeBlock _ h.memory
  cursor := by simp [derived]
  wrapped := by simp +contextual [derived, inc64_eq, ho]
  buffer := fun _ _ i => by
    have hindex : (derived s).ctr - 1 = s.ctr := by simp [derived, inc64_eq]
    rw [hindex]
    exact ksWord_of_storeBlock rfl h.memory i
  uninit := fun hu => absurd (hm.symm.trans hu) (by decide)
  exhausted := fun hf => absurd (hm.symm.trans hf) (by decide)

theorem refill_cipherInv {s t : State} (h : CipherInv s) (hm : s.mode = .ready) (hr : refill s = some t) :
    CipherInv t := by
  rcases refill_cases s with ⟨-, hs⟩ | ⟨-, -, hs⟩ | ⟨-, ho, hs⟩ <;> rw [hs] at hr <;> cases hr
  · exact h
  · exact derived_cipherInv h hm ho

/-- R81: counting one byte keeps what is buffered, and the cursor stays in 0..64. -/
theorem byteDone_cipherInv {s : State} (h : CipherInv s) (hm : s.mode = .ready) (hc : s.cur.toNat < 64) :
    CipherInv (byteDone s) where
  memory := h.memory
  cursor := by rw [byteDone_cur, BitVec.le_def]; bv_omega
  wrapped := h.wrapped
  buffer := fun _ _ => h.buffer hm (BitVec.lt_def.2 hc)
  uninit := fun hu => absurd (hm.symm.trans hu) (by decide)
  exhausted := fun hf => absurd (hm.symm.trans hf) (by decide)

/-- R104: the entry of `Exhausted` gives FAULT mode its shape. -/
theorem raiseExhausted_inv {s : State} (h : CipherInv s) (hr : refill s = none) : Inv (raiseExhausted s) := by
  rcases refill_cases s with ⟨-, hs⟩ | ⟨hc, ho, -⟩ | ⟨-, -, hs⟩
  · cases hs.symm.trans hr
  · have hcur : s.cur = 64 := by have := h.cursor; bv_omega
    have hfault : CipherInv { s with mode := .fault } :=
      { memory := h.memory
        cursor := h.cursor
        wrapped := h.wrapped
        buffer := fun hm => nomatch hm
        uninit := fun hm => nomatch hm
        exhausted := fun _ => ⟨ho, hcur⟩ }
    exact rspWrite_inv hfault .exhausted (by simp)
  · cases hs.symm.trans hr

/-- What holds between two turns of XOR's loop with `n` bytes owed (R80). -/
structure XorTurn (n : Nat) (s : State) : Prop where
  cipher : CipherInv s
  mode : s.mode = .ready
  opcL : s.opcL = 0x02
  owed : s.rem.toNat = n

/-- A turn's first part keeps what holds between turns, and leaves a byte in the buffer (R81). -/
theorem refill_xorTurn {n : Nat} {s t : State} (h : XorTurn n s) (hr : refill s = some t) :
    XorTurn n t ∧ t.cur.toNat < 64 := by
  refine ⟨⟨refill_cipherInv h.cipher h.mode hr, ?_, ?_, ?_⟩, (refill_refill hr).1⟩ <;> rw [refill_frame hr]
  · exact h.mode
  · exact h.opcL
  · exact h.owed

/-- What the two data positions of XOR ask for: bytes owed and a byte in the buffer. -/
theorem XorTurn.owing {n : Nat} {s : State} (h : XorTurn (n + 1) s) (hc : s.cur.toNat < 64) :
    s.mode = .ready ∧ s.opcL = 0x02 ∧ s.rem ≠ 0 ∧ s.cur < 64 :=
  ⟨h.mode, h.opcL, by have := h.owed; bv_omega, BitVec.lt_def.2 hc⟩

/-- One byte done is one byte less owed (R80, R81); the transfers of the turn touch neither. -/
theorem byteDone_xorTurn {n : Nat} {s : State} (h : XorTurn (n + 1) s) (hc : s.cur.toNat < 64) :
    XorTurn n (byteDone s) where
  cipher := byteDone_cipherInv h.cipher h.mode hc
  mode := h.mode
  opcL := h.opcL
  owed := by have := h.owed; rw [byteDone_rem]; bv_omega

/-- A turn does not depend on the host's side. -/
theorem transfer_xorTurn {n : Nat} {s : State} (h : XorTurn n s) (b : Byte) (bs : List Byte) :
    XorTurn n (doutPut b (dinTake bs s)) :=
  ⟨h.cipher.of_kept ⟨rfl, rfl, rfl, rfl, rfl, rfl, rfl⟩, h.mode, h.opcL, h.owed⟩

/-- Wherever XOR's loop stops, the invariant holds. -/
theorem xorLoop_inv {n : Nat} {s : State} (h : XorTurn n s) : Inv (xorLoop n s) := by
  refine xorLoop_induct (P := XorTurn) (Q := Inv) ?done ?raise ?wait ?held ?turn n s h
  case done =>
    intro s h
    rw [← h.opcL]
    exact rspWrite_inv h.cipher .ok (by simp [h.mode])
  case raise => exact fun n s h hr => raiseExhausted_inv h.cipher hr
  case wait =>
    intro n s t h hr _
    obtain ⟨ht, hc⟩ := refill_xorTurn h hr
    exact ht.cipher.inv (hold_cipherKept _ _) (ht.owing hc)
  case held =>
    intro n s t b bs h hr _ _
    obtain ⟨ht, hc⟩ := refill_xorTurn h hr
    exact ht.cipher.inv ((dinTake_cipherKept _ _).trans (hold_cipherKept _ _)) (ht.owing hc)
  case turn =>
    intro n s t b bs h hr _ _
    obtain ⟨ht, hc⟩ := refill_xorTurn h hr
    exact byteDone_xorTurn (transfer_xorTurn ht _ bs) hc

/-- The state in which XOR's loop begins: the length latched and owed (R80). -/
def xorStart (len : Word) (s : State) : State := { latchL 0x02 len s with rem := len }

theorem xorStart_cipherKept (len : Word) (s : State) : CipherKept s (xorStart len s) :=
  ⟨rfl, rfl, rfl, rfl, rfl, rfl, rfl⟩

theorem xorBody_eq_xorLoop {s : State} (h : s.mode = .ready) (len : Word) :
    xorBody len s = xorLoop len.toNat (xorStart len s) := xorBody_ready h len

theorem xorBody_inv {s : State} (h : CipherInv s) (hm : s.mode ≠ .fault) (len : Word) : Inv (xorBody len s) := by
  cases hs : s.mode with
  | uninit =>
    rw [xorBody_uninit hs]
    exact rspWrite_inv (h.of_kept (latchL_cipherKept 0x02 len s)) .noInit (by simp [hs])
  | ready =>
    rw [xorBody_eq_xorLoop hs]
    exact xorLoop_inv ⟨h.of_kept (xorStart_cipherKept len s), hs, rfl, rfl⟩
  | fault => exact absurd hs hm

/-! ### INIT and BLOCK (R60, R90) -/

/-- The registers INIT writes, before its response (R60). -/
def initRegs (k : Key) (n : Nonce) (c : U64) (s : State) : State :=
  { latchK 0x01 k n c s with key := k, nonce := n, ctr := c, ovf := false, cur := 64, mode := .ready }

theorem initBody_eq (k : Key) (n : Nonce) (c : U64) (s : State) :
    initBody k n c s = rspWrite (rspWord 0x01 .ok) (initRegs k n c s) := rfl

/-- R60: INIT leaves nothing buffered and the counter unwrapped, whatever stood there. -/
theorem initRegs_cipherInv {s : State} (h : CipherInv s) (k : Key) (n : Nonce) (c : U64) :
    CipherInv (initRegs k n c s) where
  memory := h.memory
  cursor := by simp [initRegs]
  wrapped := fun ho => nomatch ho
  buffer := fun _ hc => absurd hc (by simp [initRegs])
  uninit := fun hm => nomatch hm
  exhausted := fun hm => nomatch hm

theorem initBody_inv {s : State} (h : CipherInv s) (k : Key) (n : Nonce) (c : U64) : Inv (initBody k n c s) :=
  rspWrite_inv (initRegs_cipherInv h k n c) .ok (by simp [initRegs])

/-- R90: BLOCK ends with its response, or with at most its 64 bytes still to be put. -/
theorem blockEmit_inv {s : State} {bytes : List Byte} (h : CipherInv s) (hm : s.mode ≠ .fault) (ho : s.opcL = 0x03)
    (hlen : bytes.length ≤ 64) : Inv (blockEmit bytes s) := by
  have hkept := blockEmit_cipherKept bytes s
  rcases blockEmit_cases bytes s with ⟨-, he⟩ | ⟨hrest, he⟩
  · rw [he, ← ho]
    exact rspWrite_inv (s := { s with dout := s.dout ++ bytes, doutTake := s.doutTake - bytes.length })
      (h.of_kept ⟨rfl, rfl, rfl, rfl, rfl, rfl, rfl⟩) .ok (by simp [hm])
  · refine h.inv hkept ?_
    rw [he]
    exact ⟨hm, ho, List.ne_nil_of_length_pos (by rw [List.length_drop]; omega), by rw [List.length_drop]; omega⟩

theorem blockBody_inv {s : State} (h : CipherInv s) (hm : s.mode ≠ .fault) (k : Key) (n : Nonce) (c : U64) :
    Inv (blockBody k n c s) :=
  blockEmit_inv (h.of_kept (latchK_cipherKept 0x03 k n c s)) hm rfl (length_bytesOf _).le

/-! ### A whole step -/

/-- A command's meaning outside FAULT mode ends in the invariant, from any state whose Cipher State meets it. -/
theorem exec_inv {i : Instr} {s t : State} (h : CipherInv s) (hm : s.mode ≠ .fault) (ht : exec i s = .next t) :
    Inv t := by
  cases i with
  | init k n c => rw [exec_init hm] at ht; cases ht; exact initBody_inv h k n c
  | xor len => rw [exec_xor hm] at ht; cases ht; exact xorBody_inv h hm len
  | block k n c => rw [exec_block hm] at ht; cases ht; exact blockBody_inv h hm k n c

/-- R53: operands still missing are awaited behind the legal header latched. -/
theorem latchPartial_seqFits {s : State} {w : Word} {ops : List Word} (hm : s.mode ≠ .fault)
    (hd : decode (w :: ops) = .operandsMissing) : SeqFits (latchPartial w ops s) := by
  obtain ⟨_, _, o, hw, ho, hlen⟩ := decode_operandsMissing.1 hd
  cases hw
  refine ⟨hm, ?_⟩
  rw [operandPosition, latchPartial, header_low ho, ho]
  exact decide_eq_true hlen

/-- Where words are taken, whatever they are read as keeps the invariant. -/
theorem tookWords_inv {s t : State} {taken : List Word} (h : CipherInv s) (hm : s.mode ≠ .fault)
    (ht : tookWords s t taken) : Inv t := by
  rcases ht with ⟨i, rest, -, -, he⟩ | ⟨w, -, rfl⟩ | ⟨w, ops, hd, hw, rfl⟩
  · exact exec_inv (s := { s with cmd := rest, seq := .header }) (h.of_kept ⟨rfl, rfl, rfl, rfl, rfl, rfl, rfl⟩) hm he
  · exact rspWrite_inv (s := { s with
      cmd := s.cmd.tail, seq := .header, opcL := BitVec.extractLsb' 0 8 w })
      (h.of_kept ⟨rfl, rfl, rfl, rfl, rfl, rfl, rfl⟩) .illegal (by simp [hm])
  · exact h.inv (latchPartial_cipherKept w ops s) (latchPartial_seqFits hm (hw ▸ hd))

/-- The data positions of XOR are a point between two turns (R33). -/
theorem xorTurn_of_owing {s : State} (h : CipherInv s)
    (hs : s.mode = .ready ∧ s.opcL = 0x02 ∧ s.rem ≠ 0 ∧ s.cur < 64) :
    ∃ n, XorTurn (n + 1) s ∧ s.cur.toNat < 64 := by
  obtain ⟨hm, ho, hrem, hc⟩ := hs
  obtain ⟨n, hn⟩ := Nat.exists_eq_succ_of_ne_zero (n := s.rem.toNat) (by bv_omega)
  exact ⟨n, ⟨h, hm, ho, hn⟩, BitVec.lt_def.1 hc⟩

theorem xorResumeDout_inv {s : State} {b : Byte} (h : Inv s) (hs : s.seq = .doutXor b) : Inv (xorResumeDout b s) := by
  obtain ⟨hc, hseq⟩ := inv_iff.1 h
  rw [SeqFits, hs] at hseq
  obtain ⟨n, hturn, hcur⟩ := xorTurn_of_owing hc hseq
  rw [xorResumeDout]
  split
  · exact h
  · have hdone : XorTurn n (byteDone (doutPut b s)) := byteDone_xorTurn (transfer_xorTurn hturn b s.din) hcur
    rw [xorResume, hdone.owed]
    exact xorLoop_inv hdone

/-- Settles O58: each way a step can go keeps the Cipher State's part of the invariant and ends at a position that
fits. -/
theorem stepKeepsInvariant : Obligations.StepKeepsInvariant := by
  intro s t h hstep
  by_cases hr : s.rst = true
  · rw [step_reset hr] at hstep; cases hstep; exact applyReset_inv s
  obtain ⟨hc, hseq⟩ := inv_iff.1 h
  rcases step_cases (Bool.eq_false_iff.2 hr) hstep with
    ⟨rfl, -⟩ | ⟨hm, taken, -, htook⟩ | ⟨hs, rfl⟩ | ⟨b, hs, rfl⟩ | ⟨bytes, hs, rfl⟩ | ⟨w, hs, rfl⟩
  · exact h
  · exact tookWords_inv hc hm htook
  · rw [SeqFits, hs] at hseq
    exact xorLoop_inv ⟨hc, hseq.1, hseq.2.1, rfl⟩
  · exact xorResumeDout_inv h hs
  · rw [SeqFits, hs] at hseq
    obtain ⟨hm, ho, -, hlen⟩ := hseq
    exact blockEmit_inv hc hm ho hlen
  · rw [SeqFits, hs] at hseq
    obtain ⟨st, rfl, hst⟩ := hseq
    exact rspWrite_inv hc st hst

/-- Settles O60: the invariant's buffer clause read byte by byte. -/
theorem bufferHoldsBlock : Obligations.BufferHoldsBlock :=
  fun s h hm hc => (ksWord_eq_iff s (blockFn s.key s.nonce (s.ctr - 1))).1 (h.buffer hm hc)

end Sys2Proof.Proofs
end

section
/-! PROOFS. The frames of the commands (R26, R27): what XOR and BLOCK leave alone wherever they stop, and what INIT and
BLOCK show; then the mode changes of a step (R21). -/

namespace Sys2Proof.Proofs

open Sys2Proof.Machine Sys2Proof.Safety Sys2Proof.Laws

/-! ### XOR (R80, R81) -/

/-- XOR's loop leaves MODE alone or takes the exception (R104). -/
theorem xorLoop_mode (n : Nat) (s : State) : (xorLoop n s).mode = s.mode ∨ (xorLoop n s).mode = .fault := by
  refine xorLoop_induct (P := fun _ t => t.mode = s.mode) (Q := fun t => t.mode = s.mode ∨ t.mode = .fault)
    ?done ?raise ?wait ?held ?turn n s rfl
  case done => intro t h; rw [rspWrite_mode]; exact .inl h
  case raise => intro _ t _ _; rw [raiseExhausted_eq]; exact .inr rfl
  case wait => intro _ t u h hr _; rw [refill_frame hr]; exact .inl h
  case held => intro _ t u b bs h hr _ _; rw [refill_frame hr]; exact .inl h
  case turn => intro _ t u b bs h hr _ _; rw [refill_frame hr]; exact h

/-- With OVF set no block is derived any more: a refill that answers derives nothing (R77). -/
theorem refill_of_ovf {s t : State} (ho : s.ovf = true) (hr : refill s = some t) : t = s := by
  rcases refill_cases s with ⟨-, hs⟩ | ⟨-, -, hs⟩ | ⟨-, ho', -⟩
  · exact (Option.some.inj (hs.symm.trans hr)).symm
  · cases hs.symm.trans hr
  · exact absurd (ho.symm.trans ho') (by decide)

/-- With a byte in the buffer no block is derived (R81). -/
theorem refill_of_buffered {s : State} (h : s.cur.toNat < 64) : refill s = some s := by
  rcases refill_cases s with ⟨-, hs⟩ | ⟨hc, -⟩ | ⟨hc, -⟩
  · exact hs
  · omega
  · omega

/-- OVF once set stays, and CTR with it (R20, R77). -/
theorem xorLoop_of_ovf (n : Nat) {s : State} (ho : s.ovf = true) :
    (xorLoop n s).ovf = true ∧ (xorLoop n s).ctr = s.ctr := by
  refine xorLoop_induct (P := fun _ t => t.ovf = true ∧ t.ctr = s.ctr) (Q := fun t => t.ovf = true ∧ t.ctr = s.ctr)
    ?done ?raise ?wait ?held ?turn n s ⟨ho, rfl⟩
  case done => intro t h; rw [rspWrite_eq]; exact h
  case raise => intro _ t h _; rw [raiseExhausted_eq]; exact h
  case wait => intro _ t u h hr _; rw [refill_of_ovf h.1 hr]; exact h
  case held => intro _ t u b bs h hr _ _; rw [refill_of_ovf h.1 hr]; exact h
  case turn => intro _ t u b bs h hr _ _; rw [refill_of_ovf h.1 hr]; exact h

/-- Within the buffer no block is derived: CTR, OVF and the buffer stay (R81). -/
theorem xorLoop_within_buffer {n : Nat} {s : State} (hn : n ≤ buffered s) :
    (xorLoop n s).ctr = s.ctr ∧ (xorLoop n s).ovf = s.ovf ∧ (xorLoop n s).ksb = s.ksb := by
  have refill_eq : ∀ {m : Nat} {t u : State}, m + 1 ≤ buffered t → refill t = some u → u = t := by
    intro m t u hm hr
    rw [refill_of_buffered (by unfold buffered at hm; omega)] at hr
    exact (Option.some.inj hr).symm
  refine xorLoop_induct
    (P := fun m t => m ≤ buffered t ∧ t.ctr = s.ctr ∧ t.ovf = s.ovf ∧ t.ksb = s.ksb)
    (Q := fun t => t.ctr = s.ctr ∧ t.ovf = s.ovf ∧ t.ksb = s.ksb)
    ?done ?raise ?wait ?held ?turn n s ⟨hn, rfl, rfl, rfl⟩
  case done => rintro t ⟨-, h⟩; rw [rspWrite_eq]; exact h
  case raise => rintro _ t ⟨-, h⟩ _; rw [raiseExhausted_eq]; exact h
  case wait => rintro m t u ⟨hm, h⟩ hr _; rw [refill_eq hm hr]; exact h
  case held => rintro m t u b bs ⟨hm, h⟩ hr _ _; rw [refill_eq hm hr]; exact h
  case turn =>
    rintro m t u b bs ⟨hm, h⟩ hr _ _
    rw [refill_eq hm hr]
    refine ⟨?_, h⟩
    unfold buffered at hm ⊢
    rw [byteDone_cur, doutPut_cur, dinTake_cur]
    bv_omega

/-- Latching a length leaves the operand words past the first (R53). -/
theorem latchL_opw_ne (o : BitVec 8) (len : Word) (s : State) (i : Fin 13) (hi : i ≠ 0) :
    (latchL o len s).opw[i] = s.opw[i] := by
  rw [latchL_opw]
  exact Vector.getElem_set_ne _ i.isLt (fun h => hi (Fin.ext h.symm))

/-- Settles O37: in FAULT mode nothing runs, in UNINIT mode the command is refused, in READY mode the loop's own frames
hold of it. -/
theorem xorFrame : Obligations.XorFrame := by
  intro len s t ht
  cases hs : s.mode with
  | fault =>
    rw [exec, execXor, runCommand_eq_next, if_pos hs] at ht
    cases ht
    simp [hs]
  | uninit =>
    rw [exec_xor (by simp [hs])] at ht
    cases ht
    have hkept := xorBody_uninit_cipherKept hs len
    rw [xorBody_uninit hs] at hkept ⊢
    refine ⟨hkept.key, hkept.nonce, by simp, by simp, fun i hi => ?_, .inl (hkept.mode.trans hs), fun ho => ?_,
      fun _ => ?_, fun _ => ?_⟩
    · rw [rspWrite_opw]; exact latchL_opw_ne 0x02 len s i hi
    · exact ⟨hkept.ovf.trans ho, hkept.ctr⟩
    · exact ⟨hkept.ctr, hkept.ovf, hkept.cur, hkept.ksb, by simp⟩
    · exact ⟨hkept.ctr, hkept.ovf, fun a => by rw [hkept.ksb]⟩
  | ready =>
    rw [exec_xor (by simp [hs]), xorBody_eq_xorLoop hs] at ht
    cases ht
    obtain ⟨hkey, hnonce, -, hopw, hrst, hcmd⟩ := xorLoop_frame len.toNat (xorStart len s)
    refine ⟨hkey, hnonce, hcmd, hrst, fun i hi => ?_, ?_, fun ho => ?_, fun hu => (nomatch hu), fun hn => ?_⟩
    · exact (congrArg (·[i]) hopw).trans (latchL_opw_ne 0x02 len s i hi)
    · exact (xorLoop_mode len.toNat (xorStart len s)).imp (fun h => h.trans hs) (fun h => ⟨rfl, h⟩)
    · exact xorLoop_of_ovf len.toNat (s := xorStart len s) ho
    · obtain ⟨hctr, hovf, hksb⟩ := xorLoop_within_buffer (s := xorStart len s) hn
      exact ⟨hctr, hovf, fun a => congrArg (memRead1 · a) hksb⟩

/-! ### BLOCK (R90) -/

/-- What the emission of BLOCK leaves alone past the Cipher State. -/
theorem blockEmit_frame (bytes : List Byte) (s : State) :
    (blockEmit bytes s).rem = s.rem ∧ (blockEmit bytes s).din = s.din ∧ (blockEmit bytes s).cmd = s.cmd ∧
    (blockEmit bytes s).rst = s.rst := by
  rcases blockEmit_cases bytes s with ⟨-, h⟩ | ⟨-, h⟩ <;> rw [h]
  · simp
  · exact ⟨rfl, rfl, rfl, rfl⟩

/-- Settles O39: latching the operands and putting the bytes touch nothing of the stream. -/
theorem blockKeepsStream : Obligations.BlockKeepsStream := by
  intro k n c s t ht
  by_cases hm : s.mode = .fault
  · rw [exec, execBlock, runCommand_eq_next, if_pos hm] at ht
    cases ht
    simp
  · rw [exec_block hm] at ht
    cases ht
    obtain ⟨hkey, hnonce, hctr, hovf, hksb, hcur, hmode⟩ := blockBody_cipherKept k n c s
    obtain ⟨hrem, hdin, hcmd, hrst⟩ := blockEmit_frame (blockBytes k n c) (latchK 0x03 k n c s)
    exact ⟨hkey, hnonce, hctr, hovf, hksb, hcur, hmode, hrem, hdin, hcmd, hrst, fun a => by rw [hksb]⟩

/-! ### What INIT and BLOCK show (R26) -/

/-- Two states alike in all that INIT and BLOCK read to show something: MODE, the position, the host's side of the two
output channels. -/
structure SameShown (s t : State) : Prop where
  mode : s.mode = t.mode
  seq : s.seq = t.seq
  dout : s.dout = t.dout
  rsp : s.rsp = t.rsp
  doutTake : s.doutTake = t.doutTake
  rspTake : s.rspTake = t.rspTake

theorem rspWrite_sameShown {s t : State} (h : SameShown s t) (w : Word) :
    SameShown (rspWrite w s) (rspWrite w t) := by
  obtain ⟨hmode, -, hdout, hrsp, hdoutTake, hrspTake⟩ := h
  constructor <;> simp [hmode, hdout, hrsp, hdoutTake, hrspTake]

theorem doutPut_sameShown {s t : State} (h : SameShown s t) (b : Byte) : SameShown (doutPut b s) (doutPut b t) := by
  obtain ⟨hmode, hseq, hdout, hrsp, hdoutTake, hrspTake⟩ := h
  constructor <;> simp [hmode, hseq, hdout, hrsp, hdoutTake, hrspTake]

theorem blockEmit_sameShown {s t : State} (h : SameShown s t) (bytes : List Byte) :
    SameShown (blockEmit bytes s) (blockEmit bytes t) := by
  induction bytes generalizing s t with
  | nil => exact rspWrite_sameShown h _
  | cons b bs ih =>
    rw [blockEmit, blockEmit, h.doutTake]
    split
    · exact { h with seq := rfl }
    · exact ih (doutPut_sameShown h b)

theorem initBody_sameShown {s t : State} (h : SameShown s t) (k : Key) (n : Nonce) (c : U64) :
    SameShown (initBody k n c s) (initBody k n c t) :=
  rspWrite_sameShown (s := initRegs k n c s) (t := initRegs k n c t) { h with mode := rfl } _

theorem blockBody_sameShown {s t : State} (h : SameShown s t) (k : Key) (n : Nonce) (c : U64) :
    SameShown (blockBody k n c s) (blockBody k n c t) :=
  blockEmit_sameShown (s := latchK 0x03 k n c s) (t := latchK 0x03 k n c t) { h with } _

/-- A command that is taken or not by MODE alone shows the same, where its body does. -/
theorem runCommand_sameShown {s t : State} (h : SameShown s t) {body : State → State}
    (hbody : SameShown (body s) (body t)) :
    ∃ u v, runCommand body s = .next u ∧ runCommand body t = .next v ∧ SameShown u v := by
  refine ⟨_, _, runCommand_eq_next body s, runCommand_eq_next body t, ?_⟩
  rw [h.mode]
  split
  · exact h
  · exact hbody

/-- Settles O41: the two states are alike in all that INIT and BLOCK read to show something. -/
theorem noReadBack : Obligations.NoReadBack := by
  intro i s key' nonce' ctr' ovf' ksb' cur' hi
  have h : SameShown s { s with key := key', nonce := nonce', ctr := ctr', ovf := ovf', ksb := ksb', cur := cur' } :=
    ⟨rfl, rfl, rfl, rfl, rfl, rfl⟩
  cases i with
  | init k n c =>
    obtain ⟨u, v, hu, hv, huv⟩ := runCommand_sameShown h (initBody_sameShown h k n c)
    exact ⟨u, v, hu, hv, huv.dout, huv.rsp, huv.seq⟩
  | xor len => exact absurd rfl (hi len)
  | block k n c =>
    obtain ⟨u, v, hu, hv, huv⟩ := runCommand_sameShown h (blockBody_sameShown h k n c)
    exact ⟨u, v, hu, hv, huv.dout, huv.rsp, huv.seq⟩

/-! ### The mode changes (R21) -/

/-- INIT's opcode and operands latched, and its operands in KEY, NONCE and CTR (R53, R60). -/
def InitTaken (t : State) : Prop :=
  t.mode = .ready ∧ t.opcL = 0x01 ∧ t.opw = operandsK t.key t.nonce t.ctr

theorem initBody_initTaken (k : Key) (n : Nonce) (c : U64) (s : State) : InitTaken (initBody k n c s) := by
  simp [InitTaken, initBody_eq, initRegs]

/-- What a command does to MODE outside FAULT mode: nothing, the exception from READY mode, or INIT. -/
theorem exec_mode {i : Instr} {s t : State} (hm : s.mode ≠ .fault) (h : exec i s = .next t) :
    t.mode = s.mode ∨ (s.mode = .ready ∧ t.mode = .fault) ∨ InitTaken t := by
  cases i with
  | init k n c =>
    rw [exec_init hm] at h; cases h
    exact .inr (.inr (initBody_initTaken k n c s))
  | xor len =>
    obtain ⟨-, -, -, -, -, hmode, -⟩ := xorFrame len s t h
    exact hmode.imp_right .inl
  | block k n c =>
    obtain ⟨-, -, -, -, -, -, hmode, -⟩ := blockKeepsStream k n c s t h
    exact .inl hmode

/-- What a step that is no reset does to MODE: nothing; the exception, from READY mode or in the middle of an XOR; or
INIT outside FAULT mode. -/
theorem step_mode {s t : State} (hr : s.rst = false) (h : step s = .next t) :
    t.mode = s.mode ∨ (t.mode = .fault ∧ (s.mode = .ready ∨ s.seq = .din ∨ ∃ b, s.seq = .doutXor b)) ∨
      (s.mode ≠ .fault ∧ InitTaken t) := by
  rcases step_cases hr h with
    ⟨rfl, -⟩ | ⟨hm, taken, -, htook⟩ | ⟨hs, rfl⟩ | ⟨b, hs, rfl⟩ | ⟨bytes, -, rfl⟩ | ⟨w, -, rfl⟩
  · exact .inl rfl
  · rcases htook with ⟨i, rest, -, -, he⟩ | ⟨w, -, rfl⟩ | ⟨w, ops, -, -, rfl⟩
    · rcases exec_mode (s := { s with cmd := rest, seq := .header }) hm he with hk | ⟨hready, hf⟩ | hi
      · exact .inl hk
      · exact .inr (.inl ⟨hf, .inl hready⟩)
      · exact .inr (.inr ⟨hm, hi⟩)
    · exact .inl (refuseIllegal_cipherKept w _).mode
    · exact .inl rfl
  · exact (xorLoop_mode s.rem.toNat s).imp_right fun hf => .inl ⟨hf, .inr (.inl hs)⟩
  · rw [xorResumeDout]
    split
    · exact .inl rfl
    · exact (xorLoop_mode _ (byteDone (doutPut b s))).imp_right fun hf => .inl ⟨hf, .inr (.inr ⟨b, hs⟩)⟩
  · exact .inl (blockEmit_cipherKept bytes s).mode
  · exact .inl (rspWrite_mode w s)

/-- Under the invariant an XOR in progress is in READY mode (R80, R98). -/
theorem ready_of_xor_seq {s : State} (h : SeqFits s) (hs : s.seq = .din ∨ ∃ b, s.seq = .doutXor b) :
    s.mode = .ready := by
  rcases hs with hs | ⟨b, hs⟩ <;> rw [SeqFits, hs] at h <;> exact h.1

/-- Settles O49: each clause is read off the three things a step can do to MODE. -/
theorem modeTransitions : Obligations.ModeTransitions := by
  intro s t hstep hr
  rcases step_mode hr hstep with hk | ⟨hf, hfrom⟩ | ⟨hm, hready, hopc, hopw⟩
  · rw [hk]
    exact ⟨id, id, fun hu hready => absurd (hu.symm.trans hready) (by decide), fun _ => .inl⟩
  · refine ⟨fun _ => hf, fun hu => absurd (hf.symm.trans hu) (by decide),
      fun _ hready => absurd (hf.symm.trans hready) (by decide), fun h _ => .inr ?_⟩
    exact hfrom.elim id (ready_of_xor_seq h.sequencer)
  · exact ⟨fun hf => absurd hf hm, fun hu => absurd (hready.symm.trans hu) (by decide), fun _ _ => ⟨hopc, hopw⟩,
      fun _ hf => absurd (hready.symm.trans hf) (by decide)⟩

end Sys2Proof.Proofs
end

section
/-! PROOFS. Two tables of the state read off: the input matrix (R15) and the values at reset (R29). -/

namespace Sys2Proof.Proofs

open Sys2Proof.Machine Sys2Proof.Laws

/-- Settles O14: the constants, key and nonce words stand at their places; the index enters by its two halves. -/
theorem matrixLayout : Obligations.MatrixLayout := by
  refine ⟨fun _ => rfl, fun k n c => ⟨rfl, rfl, rfl, rfl, fun i => ?_, toNat_lo c, ?_, rfl, rfl⟩⟩
  · fin_cases i <;> rfl
  · have hword : (matrix k n c)[13] = add32 n[0] (hi c) := rfl
    rw [hword, add32, BitVec.toNat_add, toNat_hi]

/-- Settles O54: reset is a closed state; each register and output is evaluated on it. -/
theorem resetValues : Obligations.ResetValues := by
  refine ⟨?key, ?nonce, rfl, rfl, ?ks, rfl, rfl, rfl, ?opw, rfl, rfl, rfl, rfl, rfl⟩ <;> decide

end Sys2Proof.Proofs
end

section
/-! PROOFS. The bytes XOR writes (R80, R81, R86, R87): a derivation and a byte done, seen on the stream of
keystream bytes still to come; the loop writes as many of them as are left. -/

namespace Sys2Proof.Proofs

open Sys2Proof.Machine Sys2Proof.Safety Sys2Proof.Laws

/-! ### The keystream still to come (R86, R87) -/

/-- R87: the keystream bytes still to come, those buffered and those of the blocks still derivable. -/
def streamLeft (s : State) : Nat := buffered s + 64 * derivable s

theorem moved_eq (s : State) (n : Nat) : moved s n = min n (streamLeft s) := rfl

/-- The byte at the cursor is the first of the stream (R81). -/
theorem keystreamByte_eq {s : State} (hc : s.cur.toNat < 64) : keystreamByte s = streamByte s 0 := by
  have haddr : s.cur.setWidth 6 = BitVec.ofNat 6 (s.cur.toNat + 0) := by bv_omega
  rw [streamByte, if_pos (by unfold buffered; omega), keystreamByte, haddr]

/-- A used-up buffer whose refill raises has no stream left (R77). -/
theorem streamLeft_of_refill_none {s : State} (hr : refill s = none) : streamLeft s = 0 := by
  rcases refill_cases s with ⟨-, hs⟩ | ⟨hc, ho, -⟩ | ⟨-, -, hs⟩
  · cases hs.symm.trans hr
  · rw [streamLeft, buffered, derivable, if_pos ho]; omega
  · cases hs.symm.trans hr

/-- The block derived is the one the stream goes on with: as a sequence of bytes it stays as it was (R77, R85). -/
theorem streamByte_derived {s : State} (hm : Memory.wf s.ksb = true) (hc : 64 ≤ s.cur.toNat) (i : Nat) :
    streamByte (derived s) i = streamByte s i := by
  have hs : buffered s = 0 := by unfold buffered; omega
  have hd : buffered (derived s) = 64 := rfl
  have hctr : (derived s).ctr = s.ctr + 1 := by simp [derived, inc64_eq]
  have hkey : (derived s).key = s.key := rfl
  have hnonce : (derived s).nonce = s.nonce := rfl
  rw [streamByte, streamByte, hs, hd, if_neg (Nat.not_lt_zero i), Nat.sub_zero]
  by_cases hi : i < 64
  · have haddr : (BitVec.ofNat 6 ((derived s).cur.toNat + i)).toNat = i := by
      rw [show (derived s).cur.toNat = 0 from rfl, Nat.zero_add, BitVec.toNat_ofNat, Nat.mod_eq_of_lt hi]
    rw [if_pos hi, show (derived s).ksb = storeBlock (blockFn s.key s.nonce s.ctr) s.ksb from rfl,
      memRead1_storeBlock _ _ hm, haddr, Nat.div_eq_of_lt hi, Nat.mod_eq_of_lt hi, BitVec.add_zero]
    rfl
  · have hindex : s.ctr + 1 + BitVec.ofNat 64 ((i - 64) / 64) = s.ctr + BitVec.ofNat 64 (i / 64) := by bv_omega
    rw [if_neg hi, hkey, hnonce, hctr, hindex, show (i - 64) % 64 = i % 64 by omega]

/-- A derivation moves 64 bytes of the stream from the blocks still derivable to the buffer (R77, R87). -/
theorem streamLeft_derived {s : State} (hc : 64 ≤ s.cur.toNat) (ho : s.ovf = false) :
    streamLeft (derived s) = streamLeft s := by
  have hs : buffered s = 0 := by unfold buffered; omega
  have hd : buffered (derived s) = 64 := rfl
  have hctr : (derived s).ctr = s.ctr + 1 := by simp [derived, inc64_eq]
  have hovf : (derived s).ovf = decide (s.ctr = 0xFFFFFFFFFFFFFFFF) := by simp [derived, inc64_eq, ho]
  rw [streamLeft, streamLeft, hs, hd, derivable, derivable, hctr, hovf, ho, if_neg Bool.false_ne_true]
  by_cases hw : s.ctr = 0xFFFFFFFFFFFFFFFF
  · rw [decide_eq_true hw, if_pos rfl, hw]; decide
  · rw [decide_eq_false hw, if_neg Bool.false_ne_true]; bv_omega

/-- The first part of the per-byte step keeps the stream, whether it derives or not (R81). -/
theorem refill_stream {s t : State} (hm : Memory.wf s.ksb = true) (hr : refill s = some t) :
    Memory.wf t.ksb = true ∧ t.cur.toNat < 64 ∧ (∀ i, streamByte t i = streamByte s i) ∧
      streamLeft t = streamLeft s := by
  have hcur := (refill_refill hr).1
  rcases refill_cases s with ⟨-, hs⟩ | ⟨-, -, hs⟩ | ⟨hc, ho, hs⟩ <;> rw [hs] at hr <;> cases hr
  · exact ⟨hm, hcur, fun _ => rfl, rfl⟩
  · exact ⟨wf_storeBlock _ hm, hcur, streamByte_derived hm hc, streamLeft_derived hc ho⟩

/-- One byte done is one byte off the front of the stream (R81). -/
theorem buffered_byteDone {s : State} (hc : s.cur.toNat < 64) : buffered s = buffered (byteDone s) + 1 := by
  rw [buffered, buffered, byteDone_cur]; bv_omega

theorem streamByte_byteDone {s : State} (hc : s.cur.toNat < 64) (i : Nat) :
    streamByte (byteDone s) i = streamByte s (i + 1) := by
  have hb := buffered_byteDone hc
  have haddr : (byteDone s).cur.toNat + i = s.cur.toNat + (i + 1) := by rw [byteDone_cur]; bv_omega
  rw [streamByte, streamByte, haddr, hb, Nat.add_sub_add_right]
  simp only [Nat.add_lt_add_iff_right, byteDone_ksb, byteDone_key, byteDone_nonce, byteDone_ctr]

theorem streamLeft_byteDone {s : State} (hc : s.cur.toNat < 64) : streamLeft s = streamLeft (byteDone s) + 1 := by
  rw [streamLeft, streamLeft, buffered_byteDone hc, show derivable (byteDone s) = derivable s from rfl]; omega

/-! ### The loop (R80) -/

/-- The state after a turn that moves the byte `b`, `t` being what the turn's first part left (R80, R81). -/
def turned (b : Byte) (bs : List Byte) (t : State) : State :=
  byteDone (doutPut (b ^^^ keystreamByte t) (dinTake bs t))

/-- A turn with a byte offered, the keystream to meet it and a taker (R80). -/
theorem xorLoop_turn {n : Nat} {s t : State} {b : Byte} {bs : List Byte} (hr : refill s = some t)
    (hdin : s.din = b :: bs) (htake : s.doutTake ≠ 0) : xorLoop (n + 1) s = xorLoop n (turned b bs t) := by
  have hd : t.din = b :: bs := by rw [refill_frame hr]; exact hdin
  have ht : t.doutTake ≠ 0 := by rw [refill_frame hr]; exact htake
  rw [xorLoop_succ, hr]
  dsimp only
  rw [hd]
  exact if_neg ht

/-- R81: the `i`-th byte XOR writes, where the host offers it enough. -/
def outputByte (s : State) (i : Nat) : Byte := s.din.getD i 0 ^^^ streamByte s i

/-- A turn writes the first of the bytes to be written, and leaves the others to the turns after it (R81). -/
theorem turned_output {s t : State} {b : Byte} {bs : List Byte} (hm : Memory.wf s.ksb = true)
    (hr : refill s = some t) (hdin : s.din = b :: bs) :
    (turned b bs t).dout = s.dout ++ [outputByte s 0] ∧
    (∀ i, outputByte (turned b bs t) i = outputByte s (i + 1)) ∧
    streamLeft s = streamLeft (turned b bs t) + 1 := by
  obtain ⟨-, hc, hbyte, hleft⟩ := refill_stream hm hr
  refine ⟨?_, fun i => ?_, hleft ▸ streamLeft_byteDone hc⟩
  · have hdout : (turned b bs t).dout = t.dout ++ [b ^^^ keystreamByte t] := rfl
    rw [hdout, outputByte, hdin, List.getD_cons_zero, keystreamByte_eq hc, hbyte, refill_frame hr]
  · have hstream : streamByte (turned b bs t) i = streamByte t (i + 1) :=
      streamByte_byteDone (s := doutPut (b ^^^ keystreamByte t) (dinTake bs t)) hc i
    have hrest : (turned b bs t).din = bs := rfl
    rw [outputByte, outputByte, hstream, hbyte, hrest, hdin, List.getD_cons_succ]

/-- With `n` bytes offered and taken, `n` turns write the next bytes of the stream over them, up to the stream's end. -/
theorem xorLoop_dout {n : Nat} {s : State} (hm : Memory.wf s.ksb = true) (hdin : n ≤ s.din.length)
    (htake : n ≤ s.doutTake) :
    (xorLoop n s).dout = s.dout ++ (List.range (moved s n)).map (outputByte s) := by
  induction n generalizing s with
  | zero => simp [xorLoop, moved]
  | succ n ih =>
    rw [moved_eq]
    cases hr : refill s with
    | none => simp [xorLoop_succ, hr, raiseExhausted_eq, streamLeft_of_refill_none hr]
    | some t =>
      obtain ⟨b, bs, hd⟩ := List.exists_cons_of_length_pos (show 0 < s.din.length by omega)
      obtain ⟨hdout, hrest, hleft⟩ := turned_output hm hr hd
      have hlen : n ≤ (turned b bs t).din.length := by
        rw [hd, List.length_cons] at hdin
        exact Nat.le_of_succ_le_succ hdin
      have htaken : n ≤ (turned b bs t).doutTake := by
        rw [show (turned b bs t).doutTake = t.doutTake - 1 from rfl, refill_frame hr]
        exact Nat.le_sub_one_of_lt htake
      rw [xorLoop_turn hr hd (by omega), ih (s := turned b bs t) (refill_stream hm hr).1 hlen htaken,
        moved_eq, hdout, hleft,
        Nat.add_min_add_right, List.range_succ_eq_map]
      simp [Function.comp_def, hrest]

/-- Settles O29: XOR in READY mode is its loop. -/
theorem xorOutputBytes : Obligations.XorOutputBytes := by
  intro len s hready hm _ hdin htake _
  rw [exec_xor (by simp [hready]), xorBody_eq_xorLoop hready]
  exact ⟨_, rfl, xorLoop_dout (s := xorStart len s) hm hdin htake⟩

end Sys2Proof.Proofs
end

section
/-! PROOFS. A word write to the keystream buffer read back (R31). -/

namespace Sys2Proof.Proofs

open Sys2Proof.Machine Sys2Proof.Laws

/-- R31: byte `4i + j` of the buffer is byte `j` of word `i`. -/
theorem memRead1_lane (m : Memory) (i : Fin 16) {j : Nat} (hj : j < 4) :
    memRead1 m (BitVec.ofNat 6 (4 * i.val) + BitVec.ofNat 6 j) =
      wordByte (memRead4 m (BitVec.ofNat 6 (4 * i.val))) j := by
  have h := wordByte_ksWord { State.reset with ksb := m } i hj
  rw [BitVec.ofNat_add] at h
  exact h.symm

/-- R31: the bytes of a word just written are those of its value. -/
theorem memRead1_memWrite4_same {m : Memory} (i : Fin 16) (v : Word) (hm : Memory.wf m = true) {j : Nat} (hj : j < 4) :
    memRead1 (memWrite4 m (BitVec.ofNat 6 (4 * i.val)) v) (BitVec.ofNat 6 (4 * i.val) + BitVec.ofNat 6 j)
      = wordByte v j := by
  have haddr := toNat_lane i hj
  rw [memRead1_memWrite4_lane i.isLt v _ hm, haddr, if_pos (by omega), show (4 * i.val + j) % 4 = j by omega]

/-- R31: a word just written reads back. -/
theorem memRead4_memWrite4_same {m : Memory} (i : Fin 16) (v : Word) (hm : Memory.wf m = true) :
    memRead4 (memWrite4 m (BitVec.ofNat 6 (4 * i.val)) v) (BitVec.ofNat 6 (4 * i.val)) = v :=
  eq_of_wordByte fun _ hj => by rw [← memRead1_lane _ i hj, memRead1_memWrite4_same i v hm hj]

/-- Settles O19: the byte lanes of a word, and a word write by its lanes. -/
theorem bufferReadAfterWrite : Obligations.BufferReadAfterWrite := by
  intro m i v hm
  refine ⟨fun j => memRead1_lane m i j.isLt, wf_memWrite4 _ v hm, memRead4_memWrite4_same i v hm,
    fun j => memRead1_memWrite4_same i v hm j.isLt, fun b hb => ?_⟩
  rw [memRead1_memWrite4_lane i.isLt v b hm, if_neg hb]

end Sys2Proof.Proofs
end

section
/-! PROOFS. XOR moves byte for byte (R34, R80, R81): wherever it stops, as many bytes are out or on offer as
were taken. -/

namespace Sys2Proof.Proofs

open Sys2Proof.Machine Sys2Proof.Safety Sys2Proof.Laws

/-- The first `k` bytes of `din` have been taken and as many bytes are out, but for `held` bytes on offer. -/
structure BytesMoved (k held : Nat) (s t : State) : Prop where
  din : t.din = s.din.drop k
  offered : k ≤ s.din.length
  count : t.dout.length + held = s.dout.length + k
  stands : s.dout <+: t.dout

theorem BytesMoved.refl (s : State) : BytesMoved 0 0 s s := ⟨rfl, Nat.zero_le _, rfl, List.prefix_rfl⟩

/-- What touches neither data channel moves no byte. -/
theorem BytesMoved.of_kept {k held : Nat} {s t u : State} (h : BytesMoved k held s t) (hdin : u.din = t.din)
    (hdout : u.dout = t.dout) : BytesMoved k held s u :=
  ⟨hdin.trans h.din, h.offered, by rw [hdout]; exact h.count, by rw [hdout]; exact h.stands⟩

theorem refill_bytesMoved {k held : Nat} {s t u : State} (h : BytesMoved k held s t) (hr : refill t = some u) :
    BytesMoved k held s u :=
  h.of_kept (by rw [refill_frame hr]) (by rw [refill_frame hr])

/-- One transfer on `din` is one byte held (R81). -/
theorem dinTake_bytesMoved {k : Nat} {s t : State} {b : Byte} {bs : List Byte} (h : BytesMoved k 0 s t)
    (hd : t.din = b :: bs) :
    BytesMoved (k + 1) 1 s (dinTake bs t) := by
  have hdrop : s.din.drop k = b :: bs := h.din.symm.trans hd
  have hlen : s.din.length - k = bs.length + 1 := by rw [← List.length_drop, hdrop, List.length_cons]
  refine ⟨?_, by omega, by have := h.count; rw [dinTake_dout]; omega, h.stands⟩
  rw [dinTake_din, ← List.drop_drop, hdrop, List.drop_one, List.tail_cons]

/-- The transfer of the byte held (R81). -/
theorem doutPut_bytesMoved {k : Nat} {s t : State} (h : BytesMoved k 1 s t) (b : Byte) :
    BytesMoved k 0 s (doutPut b t) :=
  ⟨h.din, h.offered, by rw [doutPut_dout, List.length_append]; exact h.count,
    h.stands.trans (List.prefix_append _ _)⟩

/-- The bytes the engine holds at its position: the one on offer in the middle of an XOR, else none. -/
def heldAt (s : State) : Nat := if placeOf s.seq = .doutXor then 1 else 0

theorem heldAt_rspWrite (w : Word) (s : State) : heldAt (rspWrite w s) = 0 := by
  rw [heldAt, rspWrite_seq]; split <;> rfl

/-- Of `n` bytes some have been moved, and the engine stands where it holds those it has not yet put. -/
def SomeMoved (n : Nat) (s t : State) : Prop := ∃ k, k ≤ n ∧ BytesMoved k (heldAt t) s t

/-- A response moves no byte. -/
theorem rspWrite_someMoved {k n : Nat} {s t u : State} (h : BytesMoved k 0 s t) (hk : k ≤ n) (w : Word)
    (hdin : u.din = t.din) (hdout : u.dout = t.dout) : SomeMoved n s (rspWrite w u) :=
  ⟨k, hk, by rw [heldAt_rspWrite]; exact h.of_kept (by simp [hdin]) (by simp [hdout])⟩

/-- Wherever XOR's loop stops: between turns no byte is held, and the bytes moved and owed add up. -/
theorem xorLoop_someMoved (n : Nat) (s : State) : SomeMoved n s (xorLoop n s) := by
  refine xorLoop_induct (P := fun m t => ∃ k, k + m = n ∧ BytesMoved k 0 s t) (Q := SomeMoved n s)
    ?done ?raise ?wait ?held ?turn n s ⟨0, Nat.zero_add n, .refl s⟩
  case done => rintro t ⟨k, hk, h⟩; exact rspWrite_someMoved h (by omega) _ rfl rfl
  case raise => rintro m t ⟨k, hk, h⟩ _; exact rspWrite_someMoved h (by omega) _ rfl rfl
  case wait => rintro m t u ⟨k, hk, h⟩ hr _; exact ⟨k, by omega, (refill_bytesMoved h hr).of_kept rfl rfl⟩
  case held =>
    rintro m t u b bs ⟨k, hk, h⟩ hr hd _
    exact ⟨k + 1, by omega, (dinTake_bytesMoved (refill_bytesMoved h hr) hd).of_kept rfl rfl⟩
  case turn =>
    rintro m t u b bs ⟨k, hk, h⟩ hr hd _
    exact ⟨k + 1, by omega, (doutPut_bytesMoved (dinTake_bytesMoved (refill_bytesMoved h hr) hd) _).of_kept rfl rfl⟩

theorem xorBody_someMoved {s : State} (hm : s.mode ≠ .fault) (len : Word) : SomeMoved len.toNat s (xorBody len s) := by
  cases hs : s.mode with
  | uninit => rw [xorBody_uninit hs]; exact rspWrite_someMoved (.refl s) (Nat.zero_le _) _ rfl rfl
  | ready =>
    rw [xorBody_eq_xorLoop hs]
    obtain ⟨k, hk, h⟩ := xorLoop_someMoved len.toNat (xorStart len s)
    exact ⟨k, hk, h.din, h.offered, h.count, h.stands⟩
  | fault => exact absurd hs hm

/-- Settles O35: the bytes counted through the body of XOR. -/
theorem xorByteForByte : Obligations.XorByteForByte := by
  intro len s t hm ht
  rw [exec_xor hm] at ht
  cases ht
  obtain ⟨k, hk, hdin, hoffered, hcount, hstands⟩ := xorBody_someMoved hm len
  exact ⟨k, hk, hdin, hoffered, hcount, hstands⟩

end Sys2Proof.Proofs
end

section
/-! PROOFS. A channel primitive in progress (R33): its transfer where the host is ready, and holding where it is not. -/

namespace Sys2Proof.Proofs

open Sys2Proof.Machine Sys2Proof.Safety Sys2Proof.Laws

/-! ### A primitive in progress (R33) -/

theorem step_din {s : State} (hr : s.rst = false) (hs : s.seq = .din) : step s = .next (xorResume s) := by
  rw [step_busy hr (by rw [fetch, hs]), resume, hs]

theorem step_doutXor {s : State} {b : Byte} (hr : s.rst = false) (hs : s.seq = .doutXor b) :
    step s = .next (xorResumeDout b s) := by
  rw [step_busy hr (by rw [fetch, hs]), resume, hs]

theorem step_doutBlock {s : State} {bytes : List Byte} (hr : s.rst = false) (hs : s.seq = .doutBlock bytes) :
    step s = .next (blockEmit bytes s) := by
  rw [step_busy hr (by rw [fetch, hs]), resume, hs]

theorem step_rsp {s : State} {w : Word} (hr : s.rst = false) (hs : s.seq = .rsp w) :
    step s = .next (rspWrite w s) := by
  rw [step_busy hr (by rw [fetch, hs]), resume, hs]

/-- Settles O46: `RspWrite` with a host that takes. -/
theorem responseTaken : Obligations.ResponseTaken := by
  intro s w hr hs ht
  rw [step_rsp hr hs, rspWrite_eq, if_neg ht, if_neg ht]

/-! ### Holding (R33, log 1) -/

/-- To hold at the position where the engine stands changes nothing. -/
theorem hold_of_seq {q : Seq} {s : State} (h : s.seq = q) : hold q s = s := by subst h; rfl

/-- At the top of MainLoop with no word on offer there is nothing to take (R53), as in FAULT mode (R105). -/
theorem step_header_held {s : State} (hr : s.rst = false) (hs : s.seq = .header) (hc : s.cmd = []) :
    step s = .next s := by
  by_cases hm : s.mode = .fault
  · exact step_idle hr (by rw [fetch, hs]; exact if_pos hm)
  · exact final_step ⟨hr, hm, hs, hc⟩

/-- R24, R53: an operand word is awaited behind a legal header, below its number of operand words. -/
theorem operandPosition_iff {got : Nat} {s : State} :
    operandPosition got s = true ↔ ∃ o, headerOpcode (s.opcL.setWidth 32) = some o ∧ got < opcodeNops o := by
  rw [operandPosition]
  cases headerOpcode (s.opcL.setWidth 32) <;> simp

theorem opcodeNops_le (o : Opcode) : opcodeNops o ≤ 13 := by cases o <;> decide

/-- The operand words taken are as many as the position says (R24). -/
theorem length_latchedOps {got : Nat} {s : State} (hp : operandPosition got s = true) :
    (s.opw.toList.take got).length = got := by
  obtain ⟨o, -, hlt⟩ := operandPosition_iff.1 hp
  have := opcodeNops_le o
  rw [List.length_take, Vector.length_toList]
  omega

/-- To latch again the words latched changes nothing but the position and the words on offer (R53). -/
theorem latchPartial_latched {got : Nat} {s : State} (hs : s.seq = .operand got) (hc : s.cmd = [])
    (hp : operandPosition got s = true) : latchPartial (s.opcL.setWidth 32) (s.opw.toList.take got) s = s := by
  have hopc : BitVec.extractLsb' 0 8 (s.opcL.setWidth 32) = s.opcL := by
    rw [← BitVec.setWidth_eq_extractLsb' (by decide), BitVec.setWidth_setWidth_of_le _ (by decide), BitVec.setWidth_eq]
  have hopw : (Vector.ofFn fun i : Fin 13 => (s.opw.toList.take got).getD i.val s.opw[i]) = s.opw := by
    refine Vector.ext fun i hi => ?_
    rw [Vector.getElem_ofFn, List.getD_eq_getElem?_getD, List.getElem?_take]
    split
    · simp [hi]
    · rfl
  rw [latchPartial, hopc, hopw, length_latchedOps hp, ← hs, ← hc]

/-- With no further word on offer the words taken stay an incomplete command (R53). -/
theorem step_operand_held {got : Nat} {s : State} (hr : s.rst = false) (hs : s.seq = .operand got)
    (hm : s.mode ≠ .fault) (hp : operandPosition got s = true) (hc : s.cmd = []) : step s = .next s := by
  obtain ⟨o, ho, hlt⟩ := operandPosition_iff.1 hp
  have hd : decode (latchedWords got s) = .operandsMissing :=
    decode_operandsMissing.2 ⟨_, _, o, rfl, ho, by rwa [length_latchedOps hp]⟩
  refine step_idle hr ?_
  rw [fetch_eq hm (.inr ⟨got, hs, hp, rfl⟩), fetchFrom, hc, List.append_nil, hd]
  exact congrArg Fetched.idle (latchPartial_latched hs hc hp)

/-- With a byte in the buffer and none on `din` XOR's loop waits at its first turn (R80, R81). -/
theorem xorResume_held {s : State} (hs : s.seq = .din) (hd : s.din = []) (hc : s.cur < 64) (hrem : s.rem ≠ 0) :
    xorResume s = s := by
  obtain ⟨n, hn⟩ := Nat.exists_eq_succ_of_ne_zero (n := s.rem.toNat) (by bv_omega)
  rw [xorResume, hn, xorLoop_succ, refill_of_buffered (BitVec.lt_def.1 hc)]
  dsimp only
  rw [hd]
  exact hold_of_seq hs

theorem xorResumeDout_held {s : State} (b : Byte) (ht : s.doutTake = 0) : xorResumeDout b s = s := if_pos ht

theorem blockEmit_held {s : State} {b : Byte} {bs : List Byte} (hs : s.seq = .doutBlock (b :: bs))
    (ht : s.doutTake = 0) : blockEmit (b :: bs) s = s := by
  rw [blockEmit, if_pos ht, hold_of_seq hs]

theorem rspWrite_held {s : State} {w : Word} (hs : s.seq = .rsp w) (ht : s.rspTake = 0) : rspWrite w s = s := by
  rw [rspWrite, if_pos ht, hold_of_seq hs]

/-- Settles O45: each of the six positions with nothing to go on with. -/
theorem holdKeepsState : Obligations.HoldKeepsState := by
  intro s hr h
  rcases h with ⟨hs, hc⟩ | ⟨got, hs, hm, hp, hc⟩ | ⟨hs, hd, hc, hrem⟩ | ⟨b, hs, ht⟩ | ⟨b, bs, hs, ht⟩ | ⟨w, hs, ht⟩
  · exact step_header_held hr hs hc
  · exact step_operand_held hr hs hm hp hc
  · rw [step_din hr hs, xorResume_held hs hd hc hrem]
  · rw [step_doutXor hr hs, xorResumeDout_held b ht]
  · rw [step_doutBlock hr hs, blockEmit_held hs ht]
  · rw [step_rsp hr hs, rspWrite_held hs ht]

end Sys2Proof.Proofs
end

section
/-! PROOFS. No transfer is undone, by any step, reset among them (R33, R36, R121). -/

namespace Sys2Proof.Proofs

open Sys2Proof.Machine Sys2Proof.Safety Sys2Proof.Laws

/-- What was transferred on the output channels is still there, and what is on offer on the input channels was. -/
structure Stands (s t : State) : Prop where
  dout : s.dout <+: t.dout
  rsp : s.rsp <+: t.rsp
  din : t.din <:+ s.din
  cmd : t.cmd <:+ s.cmd

theorem Stands.refl (s : State) : Stands s s :=
  ⟨List.prefix_rfl, List.prefix_rfl, List.suffix_rfl, List.suffix_rfl⟩

theorem rspWrite_stands {s t : State} (h : Stands s t) (w : Word) : Stands s (rspWrite w t) := by
  refine ⟨by simpa using h.dout, ?_, by simpa using h.din, by simpa using h.cmd⟩
  rw [rspWrite_rsp]
  split
  · exact h.rsp
  · exact h.rsp.trans (List.prefix_append _ _)

theorem doutPut_stands {s t : State} (h : Stands s t) (b : Byte) : Stands s (doutPut b t) :=
  { h with dout := h.dout.trans (List.prefix_append _ _) }

theorem dinTake_stands {s t : State} {b : Byte} {bs : List Byte} (h : Stands s t) (hd : t.din = b :: bs) :
    Stands s (dinTake bs t) :=
  { h with din := (List.suffix_cons b bs).trans (hd ▸ h.din) }

theorem refill_stands {s t u : State} (h : Stands s t) (hr : refill t = some u) : Stands s u := by
  rw [refill_frame hr]; exact { h with }

theorem xorLoop_stands {s t : State} (h : Stands s t) (n : Nat) : Stands s (xorLoop n t) := by
  refine xorLoop_induct (P := fun _ => Stands s) (Q := Stands s) ?done ?raise ?wait ?held ?turn n t h
  case done => exact fun u h => rspWrite_stands h _
  case raise => exact fun _ u h _ => rspWrite_stands (t := { u with mode := .fault }) { h with } _
  case wait => exact fun _ u v h hr _ => { refill_stands h hr with }
  case held => exact fun _ u v b bs h hr hd _ => { dinTake_stands (refill_stands h hr) hd with }
  case turn =>
    exact fun _ u v b bs h hr hd _ => { doutPut_stands (dinTake_stands (refill_stands h hr) hd) _ with }

theorem blockEmit_stands {s t : State} (h : Stands s t) (bytes : List Byte) : Stands s (blockEmit bytes t) := by
  rcases blockEmit_cases bytes t with ⟨-, he⟩ | ⟨-, he⟩ <;> rw [he]
  · exact rspWrite_stands (t := { t with dout := t.dout ++ bytes, doutTake := t.doutTake - bytes.length })
      { h with dout := h.dout.trans (List.prefix_append _ _) } _
  · exact { h with dout := h.dout.trans (List.prefix_append _ _) }

theorem refuseIllegal_stands {s t : State} (h : Stands s t) (w : Word) : Stands s (refuseIllegal w t) :=
  rspWrite_stands (t := { t with opcL := BitVec.extractLsb' 0 8 w }) { h with } _

theorem xorBody_stands {s t : State} (h : Stands s t) (hm : t.mode ≠ .fault) (len : Word) :
    Stands s (xorBody len t) := by
  cases ht : t.mode with
  | uninit => rw [xorBody_uninit ht]; exact rspWrite_stands (t := latchL 0x02 len t) { h with } _
  | ready => rw [xorBody_eq_xorLoop ht]; exact xorLoop_stands (t := xorStart len t) { h with } _
  | fault => exact absurd ht hm

theorem exec_stands {i : Instr} {s t u : State} (h : Stands s t) (hm : t.mode ≠ .fault) (hu : exec i t = .next u) :
    Stands s u := by
  cases i with
  | init k n c =>
    rw [exec_init hm] at hu; cases hu
    exact rspWrite_stands (t := initRegs k n c t) { h with } _
  | xor len => rw [exec_xor hm] at hu; cases hu; exact xorBody_stands h hm len
  | block k n c =>
    rw [exec_block hm] at hu; cases hu
    exact blockEmit_stands (t := latchK 0x03 k n c t) { h with } _

/-- The words taken already are no whole command: a command's end is among the words on offer (R53). -/
theorem rest_suffix {s : State} {taken rest : List Word} {i : Instr} (ht : takenAt s taken)
    (hd : decode (taken ++ s.cmd) = .command i rest) : rest <:+ s.cmd := by
  obtain ⟨o, ho, -, rfl⟩ := decode_command hd
  have hlen : taken.length ≤ 1 + opcodeNops o := by
    rcases ht with ⟨-, rfl⟩ | ⟨got, -, hp, rfl⟩
    · exact Nat.zero_le _
    · obtain ⟨o', ho', hlt⟩ := operandPosition_iff.1 hp
      cases ho'.symm.trans ho
      rw [latchedWords, List.length_cons, length_latchedOps hp]
      omega
  rw [List.drop_append, List.drop_eq_nil_of_le hlen, List.nil_append]
  exact List.drop_suffix _ _

theorem tookWords_stands {s t : State} {taken : List Word} (hm : s.mode ≠ .fault) (ht : takenAt s taken)
    (h : tookWords s t taken) : Stands s t := by
  rcases h with ⟨i, rest, hd, -, he⟩ | ⟨w, -, rfl⟩ | ⟨w, ops, -, -, rfl⟩
  · exact exec_stands (t := { s with cmd := rest, seq := .header })
      { Stands.refl s with cmd := rest_suffix ht hd } hm he
  · exact refuseIllegal_stands (t := { s with cmd := s.cmd.tail, seq := .header })
      { Stands.refl s with cmd := List.tail_suffix _ } w
  · exact { Stands.refl s with cmd := List.nil_suffix }

theorem xorResumeDout_stands (b : Byte) (s : State) : Stands s (xorResumeDout b s) := by
  rw [xorResumeDout]
  split
  · exact .refl s
  · exact xorLoop_stands (t := byteDone (doutPut b s)) { doutPut_stands (.refl s) b with } _

theorem step_stands {s t : State} (h : step s = .next t) : Stands s t := by
  by_cases hr : s.rst = true
  · rw [step_reset hr] at h; cases h; exact { Stands.refl s with }
  rcases step_cases (Bool.eq_false_iff.2 hr) h with
    ⟨rfl, -⟩ | ⟨hm, taken, ht, htook⟩ | ⟨-, rfl⟩ | ⟨b, -, rfl⟩ | ⟨bytes, -, rfl⟩ | ⟨w, -, rfl⟩
  · exact .refl _
  · exact tookWords_stands hm ht htook
  · exact xorLoop_stands (.refl s) _
  · exact xorResumeDout_stands b s
  · exact blockEmit_stands (.refl s) bytes
  · exact rspWrite_stands (.refl s) w

/-- Settles O52: every operation a step is made of lets the transfers stand. -/
theorem transfersStand : Obligations.TransfersStand := by
  intro s t h
  obtain ⟨hdout, hrsp, hdin, hcmd⟩ := step_stands h
  exact ⟨hdout, hrsp, hdin, hcmd⟩

end Sys2Proof.Proofs
end

section
/-! PROOFS. The order across the channels where the engine holds (R39), and one primitive at a time (R33, R38). -/

namespace Sys2Proof.Proofs

open Sys2Proof.Machine Sys2Proof.Safety Sys2Proof.Laws

/-! ### The order across the channels (R39) -/

/-- The engine awaits an operand word. -/
def AwaitsOperand (s : State) : Prop := ∃ got, s.seq = .operand got

theorem rspWrite_not_awaits (w : Word) (s : State) : ¬ AwaitsOperand (rspWrite w s) := by
  rintro ⟨got, h⟩
  rw [rspWrite_seq] at h
  split at h <;> cases h

theorem xorLoop_not_awaits (n : Nat) (s : State) : ¬ AwaitsOperand (xorLoop n s) := by
  refine xorLoop_induct (P := fun _ _ => True) (Q := fun t => ¬ AwaitsOperand t)
    ?done ?raise ?wait ?held ?turn n s trivial
  case done => exact fun t _ => rspWrite_not_awaits _ t
  case raise => exact fun _ t _ _ => rspWrite_not_awaits _ { t with mode := .fault }
  case wait => rintro _ t u - - - ⟨got, h⟩; cases h
  case held => rintro _ t u b bs - - - - ⟨got, h⟩; cases h
  case turn => exact fun _ _ _ _ _ _ _ _ _ => trivial

theorem blockEmit_not_awaits (bytes : List Byte) (s : State) : ¬ AwaitsOperand (blockEmit bytes s) := by
  rcases blockEmit_cases bytes s with ⟨-, h⟩ | ⟨-, h⟩ <;> rw [h]
  · exact rspWrite_not_awaits _ _
  · rintro ⟨got, hs⟩; cases hs

/-- A command run has all its words (R53). -/
theorem exec_not_awaits {i : Instr} {s t : State} (hm : s.mode ≠ .fault) (h : exec i s = .next t) :
    ¬ AwaitsOperand t := by
  cases i with
  | init k n c => rw [exec_init hm] at h; cases h; exact rspWrite_not_awaits _ (initRegs k n c s)
  | xor len =>
    rw [exec_xor hm] at h
    cases h
    cases hs : s.mode with
    | uninit => rw [xorBody_uninit hs]; exact rspWrite_not_awaits _ _
    | ready => rw [xorBody_eq_xorLoop hs]; exact xorLoop_not_awaits _ _
    | fault => exact absurd hs hm
  | block k n c => rw [exec_block hm] at h; cases h; exact blockEmit_not_awaits _ _

/-- A step that ends awaiting an operand word has done nothing but take words (R53). -/
theorem step_awaits {s t : State} (hr : s.rst = false) (h : step s = .next t) (ha : AwaitsOperand t) :
    t = s ∨ ∃ w ops, t = latchPartial w ops s := by
  rcases step_cases hr h with
    ⟨rfl, -⟩ | ⟨hm, taken, -, htook⟩ | ⟨-, rfl⟩ | ⟨b, -, rfl⟩ | ⟨bytes, -, rfl⟩ | ⟨w, -, rfl⟩
  · exact .inl rfl
  · rcases htook with ⟨i, rest, -, -, he⟩ | ⟨w, -, rfl⟩ | ⟨w, ops, -, -, rfl⟩
    · exact absurd ha (exec_not_awaits (s := { s with cmd := rest, seq := .header }) hm he)
    · exact absurd ha (rspWrite_not_awaits _ _)
    · exact .inr ⟨w, ops, rfl⟩
  · exact absurd ha (xorLoop_not_awaits _ s)
  · rw [xorResumeDout] at ha ⊢
    split at ha
    · next h0 => exact .inl (if_pos h0)
    · exact absurd ha (xorLoop_not_awaits _ _)
  · exact absurd ha (blockEmit_not_awaits bytes s)
  · exact absurd ha (rspWrite_not_awaits w s)

/-- Settles O56: a response on offer is all its step can transfer; an output byte not taken holds the engine; only words
are taken before an operand word is awaited. -/
theorem channelOrder : Obligations.ChannelOrder := by
  intro s t h hr
  have held : step s = .next s → t = s := fun hs => by cases h.symm.trans hs; rfl
  refine ⟨fun w hs => ?_, fun b hs ht => ?_, fun b bs hs ht => ?_, fun ha => ?_⟩
  · rw [step_rsp hr hs] at h; cases h; simp
  · rw [held (holdKeepsState s hr (.inr (.inr (.inr (.inl ⟨b, hs, ht⟩)))))]; simp
  · rw [held (holdKeepsState s hr (.inr (.inr (.inr (.inr (.inl ⟨b, bs, hs, ht⟩))))))]; simp
  · rcases step_awaits hr h ha with rfl | ⟨w, ops, rfl⟩ <;> exact ⟨rfl, rfl, rfl⟩

/-! ### One primitive at a time (R33, R38) -/

theorem header_outputs {s : State} (hs : s.seq = .header) :
    dinReady s = false ∧ doutValid s = false ∧ rspValid s = false := by
  simp [dinReady, doutValid, doutOffer, rspValid, rspOffer, hs]

/-- The position is at one channel: an output of another channel's primitive is 0, under reset or not. -/
theorem channel_outputs (s : State) :
    (dinReady s = false ∧ doutValid s = false ∧ rspValid s = false) ∨
    (cmdReady s = false ∧ doutValid s = false ∧ rspValid s = false) ∨
    (cmdReady s = false ∧ dinReady s = false ∧ rspValid s = false) ∨
    (cmdReady s = false ∧ dinReady s = false ∧ doutValid s = false) := by
  cases hs : s.seq with
  | header => exact .inl (header_outputs hs)
  | operand got => exact .inl (by simp [dinReady, doutValid, doutOffer, rspValid, rspOffer, hs])
  | din => exact .inr (.inl (by simp [cmdReady, doutValid, doutOffer, rspValid, rspOffer, hs]))
  | doutXor b => exact .inr (.inr (.inl (by simp [cmdReady, dinReady, rspValid, rspOffer, hs])))
  | doutBlock bytes => exact .inr (.inr (.inl (by simp [cmdReady, dinReady, rspValid, rspOffer, hs])))
  | rsp w => exact .inr (.inr (.inr (by simp [cmdReady, dinReady, doutValid, doutOffer, hs])))

/-- In FAULT mode no command word is read (R105). -/
theorem cmdReady_of_fault {s : State} (hm : s.mode = .fault) : cmdReady s = false := by
  simp [cmdReady, faultOut, hm]

/-- Settles O55: the position is at one channel; at the top of MainLoop it is `cmd`, which FAULT mode closes. -/
theorem onePrimitiveAtATime : Obligations.OnePrimitiveAtATime := by
  refine fun s => ⟨?_, fun hm hs => ⟨cmdReady_of_fault hm, header_outputs hs⟩⟩
  rcases channel_outputs s with ⟨h1, h2, h3⟩ | ⟨h1, h2, h3⟩ | ⟨h1, h2, h3⟩ | ⟨h1, h2, h3⟩ <;> rw [h1, h2, h3]
  · cases cmdReady s <;> decide
  · cases dinReady s <;> decide
  · cases doutValid s <;> decide
  · cases rspValid s <;> decide

end Sys2Proof.Proofs
end

section
/-! PROOFS. The decoder and the encoder (R45 to R49, R51, R52): a sequence of words decodes to a command exactly where it
starts with that command's words; which headers are illegal; how many operand words a header is followed by. -/

namespace Sys2Proof.Proofs

open Sys2Proof.Machine Sys2Proof.Laws

/-! ### The operands off the front of the words (R47, R48) -/

/-- A key is its eight words. -/
theorem key_eta (k : Key) : #v[k[0], k[1], k[2], k[3], k[4], k[5], k[6], k[7]] = k := by
  refine Vector.ext fun i hi => ?_
  interval_cases i <;> rfl

/-- A nonce is its three words. -/
theorem nonce_eta (n : Nonce) : #v[n[0], n[1], n[2]] = n := by
  refine Vector.ext fun i hi => ?_
  interval_cases i <;> rfl

/-- Format K takes exactly the operand words of R47 off the front. -/
theorem takeK_eq_some_iff {ops rest : List Word} {k : Key} {n : Nonce} {c : U64} :
    takeK ops = some (k, n, c, rest) ↔ ops = (operandsK k n c).toList ++ rest := by
  constructor
  · intro h
    unfold takeK at h
    split at h
    · cases h; simp [operandsK]
    · cases h
  · rintro rfl
    have htake : takeK ((operandsK k n c).toList ++ rest) =
        some (#v[k[0], k[1], k[2], k[3], k[4], k[5], k[6], k[7]], #v[n[0], n[1], n[2]], joinCtr (hi c) (lo c), rest) :=
      rfl
    rw [htake, key_eta, nonce_eta, joinCtr_hi_lo]

/-- Format L takes exactly one word off the front (R48). -/
theorem takeL_eq_some_iff {ops rest : List Word} {len : Word} :
    takeL ops = some (len, rest) ↔ ops = len :: rest := by
  cases ops <;> simp [takeL]

/-! ### Decoding behind each header (R49, R51) -/

theorem headerOpcode_opcodeHeader (o : Opcode) : headerOpcode (opcodeHeader o) = some o :=
  headerOpcode_eq_some.2 rfl

/-- R49, R51: a header is illegal exactly when it is none of the three match values. -/
theorem headerOpcode_eq_none {h : Word} :
    headerOpcode h = none ↔ h ≠ 0x00000001 ∧ h ≠ 0x00000002 ∧ h ≠ 0x00000003 := by
  unfold headerOpcode
  split_ifs <;> simp_all

/-- R49: the number of operand words read off the header's value. -/
theorem opcodeNops_of_header {h : Word} {o : Opcode} (ho : headerOpcode h = some o) :
    opcodeNops o = if h = 0x00000002 then 1 else 13 := by
  rw [headerOpcode_eq_some.1 ho]
  cases o <;> rfl

/-! ### Decoding (R45, R51, R52) -/

/-- R51: an illegal header is a command of one word, whatever follows it. -/
theorem decode_illegalHeader_iff {h : Word} {ops : List Word} :
    decode (h :: ops) = .illegalHeader h ↔ headerOpcode h = none := by
  rw [decode]
  split
  · next ho => simp [ho]
  all_goals
    next ho => rw [ho]; split <;> simp

/-- R52: behind a legal header the decoder waits exactly while operand words are missing. -/
theorem decode_missing_iff {h : Word} {ops : List Word} {o : Opcode} (ho : headerOpcode h = some o) :
    decode (h :: ops) = .operandsMissing ↔ ops.length < opcodeNops o := by
  rw [decode_operandsMissing]
  constructor
  · rintro ⟨_, _, o', hw, ho', hlt⟩
    cases hw
    cases ho.symm.trans ho'
    exact hlt
  · exact fun hlt => ⟨h, ops, o, rfl, ho, hlt⟩

/-- Behind a legal header the decoder finds a command or waits for operand words (R52). -/
theorem decode_of_header {h : Word} {o : Opcode} (ho : headerOpcode h = some o) (ops : List Word) :
    decode (h :: ops) = .operandsMissing ∨ ∃ i rest, decode (h :: ops) = .command i rest := by
  cases o with
  | init => cases htake : takeK ops <;> simp [decode, ho, htake]
  | xor => cases htake : takeL ops <;> simp [decode, ho, htake]
  | block => cases htake : takeK ops <;> simp [decode, ho, htake]

/-- What decodes to a command is exactly that command's words and what is left over (R45, R49). -/
theorem decode_eq_command_iff {ws rest : List Word} {i : Instr} :
    decode ws = .command i rest ↔ ws = encode i ++ rest := by
  constructor
  · intro hd
    unfold decode at hd
    split at hd
    · cases hd
    · split at hd
      · cases hd
      all_goals
        next ho =>
        split at hd
        · next htake =>
          cases hd
          simpa [encode, headerOpcode_eq_some.1 ho, takeK_eq_some_iff, takeL_eq_some_iff] using htake
        · cases hd
  · rintro rfl
    cases i with
    | init k n c => simp [encode, decode, headerOpcode_opcodeHeader, takeK_eq_some_iff.2 rfl]
    | xor len => rfl
    | block k n c => simp [encode, decode, headerOpcode_opcodeHeader, takeK_eq_some_iff.2 rfl]

/-- Settles O1: the words of a command are read back as it. -/
theorem decodeOfEncode : Obligations.DecodeOfEncode :=
  fun _ _ _ => decode_eq_command_iff.2 rfl

/-- Settles O2: the other direction of the same equivalence. -/
theorem encodeOfDecode : Obligations.EncodeOfDecode :=
  fun _ _ _ h => (decode_eq_command_iff.1 h).symm

/-- Settles O3: the headers that select no command. -/
theorem illegalHeadersExactly : Obligations.IllegalHeadersExactly :=
  fun _ _ => decode_illegalHeader_iff.trans headerOpcode_eq_none

/-- Settles O4: the header gives the number of operand words, below which the decoder waits and which a command has
taken. -/
theorem commandLengths : Obligations.CommandLengths := by
  refine fun h ops => ⟨?_, ?_, fun i rest hd => ?_⟩
  · rintro (rfl | rfl)
    · exact decode_missing_iff (headerOpcode_opcodeHeader .init)
    · exact decode_missing_iff (headerOpcode_opcodeHeader .block)
  · rintro rfl
    exact decode_missing_iff (headerOpcode_opcodeHeader .xor)
  · obtain ⟨o, ho, hlen, rfl⟩ := decode_command hd
    rw [List.headD_cons] at ho
    rw [← opcodeNops_of_header ho, List.length_drop]
    rw [List.length_cons] at hlen ⊢
    omega

end Sys2Proof.Proofs
end

section
/-! PROOFS. The words that travel: the response word as a number (R55), the byte lanes of the operands of format K (R47),
the long XOR of the assembler (R57). -/

namespace Sys2Proof.Proofs

open Sys2Proof.Machine Sys2Proof.Laws

/-! ### The response word (R55) -/

/-- Settles O7: the four fields of the response word put together. -/
theorem responseWordValue : Obligations.ResponseWordValue := by
  intro opc st
  have hzero : ∀ w, (0 : BitVec w).toNat = 0 := fun _ => BitVec.toNat_zero
  rw [rspWord, toNat_concat, toNat_concat, toNat_concat, hzero, hzero]
  omega

/-! ### Format K assembled (R47) -/

/-- Byte `m` of a string is byte `m mod 4` of its word `m div 4` (R5). -/
theorem wordByte_wordsOf {k : Nat} (bytes : List Byte) (i : Fin k) {j : Nat} (hj : j < 4) :
    wordByte (wordsOf k bytes)[i] j = bytes.getD (4 * i.val + j) 0 := by
  rw [getElem_wordsOf, wordByte_pack4 _ _ _ _ hj]
  interval_cases j <;> rfl

/-- Key word `i` is word `1 + i` of a command of format K (R47). -/
theorem getD_keyWord (h : Word) (k : Key) (n : Nonce) (c : U64) (i : Fin 8) :
    (h :: (operandsK k n c).toList).getD (1 + i.val) 0 = k[i] := by
  fin_cases i <;> rfl

/-- Nonce word `i` is word `9 + i` of a command of format K (R47). -/
theorem getD_nonceWord (h : Word) (k : Key) (n : Nonce) (c : U64) (i : Fin 3) :
    (h :: (operandsK k n c).toList).getD (9 + i.val) 0 = n[i] := by
  fin_cases i <;> rfl

/-- The words of a format K line: header and operands, the sizes being right (R56). -/
theorem assembleLine_formatK {key nonce : List Byte} {ctr : Nat} (hk : key.length = 32) (hn : nonce.length = 12)
    (hc : ctr < 2 ^ 64) {line : AsmLine} {header : Word}
    (hline : (line = .init key nonce ctr ∧ header = 0x00000001) ∨ (line = .block key nonce ctr ∧ header = 0x00000003)) :
    assembleLine line =
      some (header :: (operandsK (wordsOf 8 key) (wordsOf 3 nonce) (BitVec.ofNat 64 ctr)).toList, []) := by
  have hsize : (keySizeOk key && nonceSizeOk nonce && decide (ctr < 2 ^ 64)) = true := by
    rw [decide_eq_true hc, keySizeOk, nonceSizeOk, hk, hn]
    rfl
  rcases hline with ⟨rfl, rfl⟩ | ⟨rfl, rfl⟩ <;> exact if_pos hsize

/-- The two counter words of a command put the counter together (R47). -/
theorem counterWords_toNat {ctr : Nat} (hc : ctr < 2 ^ 64) :
    2 ^ 32 * (hi (BitVec.ofNat 64 ctr)).toNat + (lo (BitVec.ofNat 64 ctr)).toNat = ctr := by
  rw [← toNat_joinCtr, joinCtr_hi_lo, BitVec.toNat_ofNat, Nat.mod_eq_of_lt hc]

/-- Settles O6: each byte string is packed into its words, and each word stands at its place. -/
theorem keyAndNonceByteLanes : Obligations.KeyAndNonceByteLanes := by
  intro key nonce ctr line header hk hn hc hline
  refine ⟨_, assembleLine_formatK hk hn hc hline, rfl, rfl, fun m hm => ?_, fun m hm => ?_, counterWords_toNat hc⟩
  · rw [getD_keyWord _ _ _ _ ⟨m / 4, by omega⟩, wordByte_wordsOf _ _ (Nat.mod_lt _ (by decide)), Nat.div_add_mod]
  · rw [getD_nonceWord _ _ _ _ ⟨m / 4, by omega⟩, wordByte_wordsOf _ _ (Nat.mod_lt _ (by decide)), Nat.div_add_mod]

/-! ### The long XOR (R57) -/

/-- Settles O8: quotient and remainder of the length by the longest one. -/
theorem longXorAddsUp : Obligations.LongXorAddsUp := by
  intro n hn
  have hr : (BitVec.ofNat 32 (n % (2 ^ 32 - 1))).toNat = n % (2 ^ 32 - 1) := by
    rw [BitVec.toNat_ofNat]; omega
  refine ⟨n / (2 ^ 32 - 1), BitVec.ofNat 32 (n % (2 ^ 32 - 1)), ?_, by rw [hr]; omega, by rw [hr]; omega⟩
  rw [assembleLine, if_pos (show (AsmLine.xorl n).wellFormed = true from decide_eq_true hn)]
  simp

end Sys2Proof.Proofs
end

section
/-! PROOFS. The steps of MainLoop where words are taken (R51, R52, R53): what the words taken and on offer are read as says
what the step does; words that come late. -/

namespace Sys2Proof.Proofs

open Sys2Proof.Machine Sys2Proof.Laws

/-! ### The step by what the words are read as (R53) -/

section Taking

variable {s : State} {taken : List Word} (hr : s.rst = false) (hm : s.mode ≠ .fault) (ht : takenAt s taken)

include hr hm ht

/-- A whole command runs on the state with its words taken. -/
theorem step_of_command {i : Instr} {rest : List Word} (hd : decode (taken ++ s.cmd) = .command i rest) :
    step s = exec i { s with cmd := rest, seq := .header } :=
  step_run hr (by rw [fetch_eq hm ht, fetchFrom, hd])

/-- An illegal header is refused. -/
theorem step_of_illegalHeader {h : Word} (hd : decode (taken ++ s.cmd) = .illegalHeader h) :
    step s = .next (refuseIllegal h { s with cmd := s.cmd.tail, seq := .header }) :=
  step_idle hr (by rw [fetch_eq hm ht, fetchFrom, hd])

/-- An incomplete command is latched as far as it has come. -/
theorem step_of_operandsMissing {h : Word} {ops : List Word} (hw : taken ++ s.cmd = h :: ops)
    (hd : decode (h :: ops) = .operandsMissing) : step s = .next (latchPartial h ops s) :=
  step_idle hr (by rw [fetch_eq hm ht, fetchFrom, hw, hd])

end Taking

/-- Settles O42: at the top of MainLoop no word has been taken yet. -/
theorem stepRunsDecoded : Obligations.StepRunsDecoded := by
  intro s i rest hr hm hs hd
  rw [step_of_command hr hm (.inl ⟨hs, rfl⟩) hd, ← hs]

/-! ### An illegal header (R51) -/

/-- R51, R55: the response to an illegal header, as a number of its low byte. -/
theorem rspWord_illegal (h : Word) :
    rspWord (BitVec.extractLsb' 0 8 h) .illegal = BitVec.ofNat 32 (2 ^ 8 * (h.toNat % 256) + 1) := by
  have hstatus : (statusCode .illegal).toNat = 1 := rfl
  apply BitVec.eq_of_toNat_eq
  rw [responseWordValue, toNat_field, hstatus, BitVec.toNat_ofNat]
  omega

/-- Settles O44: the step's refusal, its fields written out. -/
theorem illegalHeaderStep : Obligations.IllegalHeaderStep := by
  intro s h rest hr hm hs hc h1 h2 h3
  have hd : decode ([] ++ s.cmd) = .illegalHeader h := by
    rw [hc]; exact (illegalHeadersExactly h rest).2 ⟨h1, h2, h3⟩
  have hopc : BitVec.extractLsb' 0 8 h = BitVec.ofNat 8 h.toNat :=
    BitVec.eq_of_toNat_eq (by rw [toNat_field, BitVec.toNat_ofNat]; omega)
  rw [step_of_illegalHeader hr hm (.inl ⟨hs, rfl⟩) hd, refuseIllegal_eq, rspWord_illegal, hopc, hc]
  rfl

/-! ### Operand words that come late (R52, R53) -/

/-- The words latched are the words that were taken: a legal header is its low byte, and there are at most 13 operand
words (R45, R46). -/
theorem latchedWords_latchPartial {h : Word} {ops : List Word} {o : Opcode} (ho : headerOpcode h = some o)
    (hlen : ops.length ≤ 13) (s : State) : latchedWords ops.length (latchPartial h ops s) = h :: ops := by
  have hopw : (latchPartial h ops s).opw.toList.take ops.length = ops := by
    refine List.ext_getElem (by simpa using hlen) fun i hi hi' => ?_
    simp [latchPartial, hi']
  rw [latchedWords, hopw]
  exact congrArg (· :: ops) (header_low ho)

/-- Latching an incomplete command leaves the engine where the words latched are the words taken (R53). -/
theorem latchPartial_takenAt {h : Word} {ops : List Word} {o : Opcode} {s : State} (hm : s.mode ≠ .fault)
    (ho : headerOpcode h = some o) (hlt : ops.length < opcodeNops o) : takenAt (latchPartial h ops s) (h :: ops) := by
  obtain ⟨-, hposition⟩ := latchPartial_seqFits hm ((decode_missing_iff ho).2 hlt)
  exact .inr ⟨ops.length, rfl, hposition, (latchedWords_latchPartial ho (hlt.le.trans (opcodeNops_le o)) s).symm⟩

/-- Words latched in two parts are latched as they would be in one (R53). -/
theorem latchPartial_hostOfferCmd (h : Word) (ops later : List Word) (s : State) :
    latchPartial h (ops ++ later) (hostOfferCmd later (latchPartial h ops s)) = latchPartial h (ops ++ later) s := by
  have hopw : (latchPartial h (ops ++ later) (hostOfferCmd later (latchPartial h ops s))).opw =
      (latchPartial h (ops ++ later) s).opw := by
    refine congrArg Vector.ofFn (funext fun i => ?_)
    have hfirst : (hostOfferCmd later (latchPartial h ops s)).opw[i] = ops.getD i.val s.opw[i] :=
      Vector.getElem_ofFn i.isLt
    rw [hfirst, List.getD_eq_getElem?_getD, List.getD_eq_getElem?_getD, List.getD_eq_getElem?_getD,
      List.getElem?_append]
    split
    · next hlt => simp [hlt]
    · next hge => rw [List.getElem?_eq_none (not_lt.1 hge), Option.getD_none]
  exact congrArg (fun v => { latchPartial h (ops ++ later) s with opw := v }) hopw

/-- What a command's meaning does not read of the sequencer registers: OPC_L, and OPW unless the command writes only part
of it (R53, log 16). -/
theorem exec_of_latched {i : Instr} {s : State} (hm : s.mode ≠ .fault) (opc : BitVec 8) {opw : Opw}
    (hopw : ∀ len, i = .xor len → opw = s.opw) : exec i { s with opcL := opc, opw := opw } = exec i s := by
  cases i with
  | init k n c => rw [exec_init hm, exec_init (s := { s with opcL := opc, opw := opw }) hm]; rfl
  | xor len =>
    rw [hopw len rfl, exec_xor hm, exec_xor (s := { s with opcL := opc, opw := s.opw }) hm]; rfl
  | block k n c => rw [exec_block hm, exec_block (s := { s with opcL := opc, opw := opw }) hm]; rfl

/-- Format L has one operand word: none has been latched while its command is incomplete (R45). -/
theorem latchPartial_opw_of_xor {h : Word} {ops later rest : List Word} {o : Opcode} {len : Word}
    (ho : headerOpcode h = some o) (hlt : ops.length < opcodeNops o)
    (hd : decode (h :: (ops ++ later)) = .command (.xor len) rest) (s : State) : (latchPartial h ops s).opw = s.opw := by
  have hh : h = opcodeHeader .xor := (List.cons.inj (decode_eq_command_iff.1 hd)).1
  rw [hh, headerOpcode_opcodeHeader] at ho
  cases ho
  rw [List.eq_nil_of_length_eq_zero (Nat.lt_one_iff.1 hlt)]
  refine Vector.ext fun i hi => ?_
  simp [latchPartial]

/-- An incomplete command latched and further words make the step of all the words at once (R52, R53). -/
theorem step_hostOfferCmd_latchPartial {s : State} {h : Word} {ops later : List Word} {o : Opcode} (hr : s.rst = false)
    (hm : s.mode ≠ .fault) (hs : s.seq = .header) (hc : s.cmd = h :: (ops ++ later)) (ho : headerOpcode h = some o)
    (hlt : ops.length < opcodeNops o) : step (hostOfferCmd later (latchPartial h ops s)) = step s := by
  have hlate : takenAt (hostOfferCmd later (latchPartial h ops s)) (h :: ops) := latchPartial_takenAt (s := s) hm ho hlt
  have hwhole : takenAt s [] := .inl ⟨hs, rfl⟩
  have hrlate : (hostOfferCmd later (latchPartial h ops s)).rst = false := hr
  have hmlate : (hostOfferCmd later (latchPartial h ops s)).mode ≠ .fault := hm
  rcases decode_of_header ho (ops ++ later) with hd | ⟨i, rest, hd⟩
  · rw [step_of_operandsMissing hr hm hwhole hc hd,
      step_of_operandsMissing (ops := ops ++ later) hrlate hmlate hlate rfl hd, latchPartial_hostOfferCmd]
  · rw [step_of_command (i := i) (rest := rest) hr hm hwhole (by rw [hc]; exact hd),
      step_of_command hrlate hmlate hlate hd]
    refine exec_of_latched (s := { s with cmd := rest, seq := .header }) hm (BitVec.extractLsb' 0 8 h) fun len hi => ?_
    exact latchPartial_opw_of_xor ho hlt (hi ▸ hd) s

/-- A step from the top of MainLoop that ends awaiting an operand word has latched an incomplete command (R53). -/
theorem latchPartial_of_awaits {s t : State} (hr : s.rst = false) (hm : s.mode ≠ .fault) (hs : s.seq = .header)
    (h : step s = .next t) (ha : AwaitsOperand t) :
    ∃ w ops o, s.cmd = w :: ops ∧ headerOpcode w = some o ∧ ops.length < opcodeNops o ∧ t = latchPartial w ops s := by
  rcases step_taking hr hm (.inl ⟨hs, rfl⟩) h with rfl | ⟨i, rest, -, -, he⟩ | ⟨w, -, rfl⟩ | ⟨w, ops, hd, hw, rfl⟩
  · obtain ⟨got, hgot⟩ := ha
    cases hs.symm.trans hgot
  · exact absurd ha (exec_not_awaits (s := { s with cmd := rest, seq := .header }) hm he)
  · exact absurd ha (rspWrite_not_awaits _ _)
  · rw [hw] at hd
    obtain ⟨_, _, o, hcons, ho, hlt⟩ := decode_operandsMissing.1 hd
    cases hcons
    exact ⟨w, ops, o, hw, ho, hlt, rfl⟩

/-- Settles O43: the first step has latched an incomplete command. -/
theorem lateWordsSameCommand : Obligations.LateWordsSameCommand := by
  intro s t now later got hr hm hs hstep hgot
  obtain ⟨w, ops, o, rfl, ho, hlt, rfl⟩ :=
    latchPartial_of_awaits (s := { s with cmd := now }) hr hm hs hstep ⟨got, hgot⟩
  exact step_hostOfferCmd_latchPartial (s := { s with cmd := w :: ops ++ later }) hr hm hs rfl ho hlt

end Sys2Proof.Proofs
end

section
/-! PROOFS. One response per command (R53): a command ends with its response, or holds before it. -/

namespace Sys2Proof.Proofs

open Sys2Proof.Machine Sys2Proof.Laws

/-- At the top of MainLoop with one response more, or holding with none. -/
def EndsOrHolds (s t : State) : Prop :=
  (t.seq = .header ∧ ∃ w, t.rsp = s.rsp ++ [w]) ∨ (t.seq ≠ .header ∧ t.rsp = s.rsp)

/-- `RspWrite` gives the one response, or holds with it on offer (R33). -/
theorem rspWrite_endsOrHolds {s t : State} (h : t.rsp = s.rsp) (w : Word) : EndsOrHolds s (rspWrite w t) := by
  rw [EndsOrHolds, rspWrite_seq, rspWrite_rsp, h]
  split
  · exact .inr ⟨nofun, rfl⟩
  · exact .inl ⟨rfl, w, rfl⟩

theorem xorLoop_endsOrHolds {s t : State} (n : Nat) (h : t.rsp = s.rsp) : EndsOrHolds s (xorLoop n t) := by
  refine xorLoop_induct (P := fun _ t => t.rsp = s.rsp) (Q := EndsOrHolds s) ?done ?raise ?wait ?held ?turn n t h
  case done => exact fun t h => rspWrite_endsOrHolds h _
  case raise => exact fun _ t h _ => rspWrite_endsOrHolds (t := { t with mode := .fault }) h _
  case wait => intro _ t u h hr _; rw [refill_frame hr]; exact .inr ⟨nofun, h⟩
  case held => intro _ t u b bs h hr _ _; rw [refill_frame hr]; exact .inr ⟨nofun, h⟩
  case turn => intro _ t u b bs h hr _ _; rw [refill_frame hr]; exact h

theorem xorBody_endsOrHolds {s : State} (hm : s.mode ≠ .fault) (len : Word) : EndsOrHolds s (xorBody len s) := by
  cases hs : s.mode with
  | uninit => rw [xorBody_uninit hs]; exact rspWrite_endsOrHolds rfl _
  | ready => rw [xorBody_eq_xorLoop hs]; exact xorLoop_endsOrHolds _ rfl
  | fault => exact absurd hs hm

theorem blockEmit_endsOrHolds {s t : State} (bytes : List Byte) (h : t.rsp = s.rsp) :
    EndsOrHolds s (blockEmit bytes t) := by
  rcases blockEmit_cases bytes t with ⟨-, he⟩ | ⟨-, he⟩ <;> rw [he]
  · exact rspWrite_endsOrHolds (t := { t with dout := t.dout ++ bytes, doutTake := t.doutTake - bytes.length }) h _
  · exact .inr ⟨nofun, h⟩

/-- Settles O51: the response is the last act of each command, and a hold before it gives none. -/
theorem oneResponsePerCommand : Obligations.OneResponsePerCommand := by
  intro i s hm
  cases i with
  | init k n c => exact ⟨_, exec_init hm k n c, rspWrite_endsOrHolds (t := initRegs k n c s) rfl _⟩
  | xor len => exact ⟨_, exec_xor hm len, xorBody_endsOrHolds hm len⟩
  | block k n c => exact ⟨_, exec_block hm k n c, blockEmit_endsOrHolds (t := latchK 0x03 k n c s) _ rfl⟩

end Sys2Proof.Proofs
end

section
/-! PROOFS. What XOR decides does not depend on the secrets (R58): two states alike but for key, nonce, keystream and the
values of the data bytes run through XOR side by side. -/

namespace Sys2Proof.Proofs

open Sys2Proof.Machine Sys2Proof.Safety Sys2Proof.Laws

/-- Two states alike in all that R58(c) lets control depend on: everything but KEY, NONCE, KS and the values of the data
bytes. -/
structure SameControl (s t : State) : Prop where
  ctr : s.ctr = t.ctr
  ovf : s.ovf = t.ovf
  cur : s.cur = t.cur
  mode : s.mode = t.mode
  opcL : s.opcL = t.opcL
  opw : s.opw = t.opw
  rem : s.rem = t.rem
  place : placeOf s.seq = placeOf t.seq
  rsp : s.rsp = t.rsp
  dinLength : s.din.length = t.din.length
  doutLength : s.dout.length = t.dout.length
  doutTake : s.doutTake = t.doutTake
  rspTake : s.rspTake = t.rspTake

theorem rspWrite_sameControl {s t : State} (h : SameControl s t) (w : Word) :
    SameControl (rspWrite w s) (rspWrite w t) := by
  rw [rspWrite_eq, rspWrite_eq]
  exact { h with
    place := by dsimp only; rw [h.rspTake]
    rsp := by dsimp only; rw [h.rspTake, h.rsp]
    rspTake := congrArg (· - 1) h.rspTake }

/-- R104: the exception answers with the opcode in OPC_L. -/
theorem raiseExhausted_sameControl {s t : State} (h : SameControl s t) :
    SameControl (raiseExhausted s) (raiseExhausted t) := by
  have hword : rspWord t.opcL .exhausted = rspWord s.opcL .exhausted := by rw [h.opcL]
  rw [raiseExhausted, raiseExhausted, hword]
  exact rspWrite_sameControl (s := { s with mode := .fault }) (t := { t with mode := .fault }) { h with mode := rfl } _

theorem hold_sameControl {s t : State} (h : SameControl s t) {q r : Seq} (hqr : placeOf q = placeOf r) :
    SameControl (hold q s) (hold r t) := { h with place := hqr }

theorem dinTake_sameControl {s t : State} (h : SameControl s t) {bs cs : List Byte} (hlen : bs.length = cs.length) :
    SameControl (dinTake bs s) (dinTake cs t) := { h with dinLength := hlen }

/-- One byte put each, whatever their values. -/
theorem doutPut_sameControl {s t : State} (h : SameControl s t) (b c : Byte) :
    SameControl (doutPut b s) (doutPut c t) :=
  { h with
    doutLength := by simp [h.doutLength]
    doutTake := congrArg (· - 1) h.doutTake }

theorem byteDone_sameControl {s t : State} (h : SameControl s t) : SameControl (byteDone s) (byteDone t) :=
  { h with
    cur := congrArg (· + 1) h.cur
    rem := congrArg (· - 1) h.rem }

/-- R77: which block is derived shows in KS only. -/
theorem derived_sameControl {s t : State} (h : SameControl s t) : SameControl (derived s) (derived t) :=
  { h with
    ctr := by simp [derived, h.ctr]
    ovf := by simp [derived, h.ovf, h.ctr]
    cur := rfl }

/-- A used-up buffer with OVF set: the derivation raises (R77, R81). -/
theorem refill_of_exhausted {s : State} (hc : 64 ≤ s.cur.toNat) (ho : s.ovf = true) : refill s = none := by
  rw [refill, if_pos hc, ksgen, if_pos ho]; rfl

/-- A used-up buffer with OVF clear: a block is derived (R77, R81). -/
theorem refill_of_derivable {s : State} (hc : 64 ≤ s.cur.toNat) (ho : s.ovf = false) :
    refill s = some (derived s) := by
  rw [refill, if_pos hc, ksgen, if_neg (by rw [ho]; decide)]; rfl

/-- Whether a block is derived, and whether that raises, is decided by CUR and OVF (R77, R81). -/
theorem refill_sameControl {s t : State} (h : SameControl s t) :
    (refill s = none ∧ refill t = none) ∨
    ∃ u v, refill s = some u ∧ refill t = some v ∧ SameControl u v := by
  have hcur : s.cur.toNat = t.cur.toNat := congrArg BitVec.toNat h.cur
  rcases refill_cases s with ⟨hc, hs⟩ | ⟨hc, ho, hs⟩ | ⟨hc, ho, hs⟩
  · exact .inr ⟨s, t, hs, refill_of_buffered (hcur ▸ hc), h⟩
  · exact .inl ⟨hs, refill_of_exhausted (hcur ▸ hc) (h.ovf ▸ ho)⟩
  · exact .inr ⟨_, _, hs, refill_of_derivable (hcur ▸ hc) (h.ovf ▸ ho), derived_sameControl h⟩

/-- The two runs of XOR's loop take the same turns and stop at the same place (R80). -/
theorem xorLoop_sameControl (n : Nat) {s t : State} (h : SameControl s t) :
    SameControl (xorLoop n s) (xorLoop n t) := by
  induction n generalizing s t with
  | zero => exact rspWrite_sameControl h _
  | succ n ih =>
    rw [xorLoop_succ, xorLoop_succ]
    rcases refill_sameControl h with ⟨hs, ht⟩ | ⟨u, v, hs, ht, huv⟩ <;> rw [hs, ht] <;> dsimp only
    · exact raiseExhausted_sameControl h
    have hlen := huv.dinLength
    cases hu : u.din with
    | nil =>
      have hv : v.din = [] := List.eq_nil_of_length_eq_zero (by rw [← hlen, hu, List.length_nil])
      rw [hv]
      exact hold_sameControl huv rfl
    | cons b bs =>
      rw [hu, List.length_cons] at hlen
      obtain ⟨c, cs, hv⟩ := List.exists_cons_of_length_eq_add_one hlen.symm
      rw [hv, List.length_cons, Nat.add_right_cancel_iff] at hlen
      have htake := dinTake_sameControl huv hlen
      rw [hv, huv.doutTake]
      dsimp only
      split
      · exact hold_sameControl htake rfl
      · exact ih (byteDone_sameControl (doutPut_sameControl htake _ _))

/-- Latching the length touches nothing the two runs differ in (R53). -/
theorem latchL_sameControl {s t : State} (h : SameControl s t) (o : BitVec 8) (len : Word) :
    SameControl (latchL o len s) (latchL o len t) :=
  { h with
    opcL := rfl
    opw := congrArg (·.set 0 len) h.opw }

theorem xorBody_sameControl {s t : State} (h : SameControl s t) (hm : s.mode ≠ .fault) (len : Word) :
    SameControl (xorBody len s) (xorBody len t) := by
  have hlatch := latchL_sameControl h 0x02 len
  cases hs : s.mode with
  | uninit =>
    rw [xorBody_uninit hs, xorBody_uninit (h.mode ▸ hs)]
    exact rspWrite_sameControl hlatch _
  | ready =>
    rw [xorBody_eq_xorLoop hs, xorBody_eq_xorLoop (h.mode ▸ hs)]
    exact xorLoop_sameControl _ (s := xorStart len s) (t := xorStart len t) { hlatch with rem := rfl }
  | fault => exact absurd hs hm

/-- Settles O36: the two states are alike in all that control depends on, and XOR keeps them so. -/
theorem xorControlIgnoresData : Obligations.XorControlIgnoresData := by
  intro len s key' nonce' ksb' din' hlen hm
  have h : SameControl s { s with key := key', nonce := nonce', ksb := ksb', din := din' } :=
    ⟨rfl, rfl, rfl, rfl, rfl, rfl, rfl, rfl, rfl, hlen.symm, rfl, rfl, rfl⟩
  obtain ⟨hctr, hovf, hcur, hmode, hopcL, hopw, hrem, hplace, hrsp, hdin, hdout, hdoutTake, hrspTake⟩ :=
    xorBody_sameControl h hm len
  exact ⟨_, _, exec_xor hm len, exec_xor (h.mode ▸ hm) len, hctr, hovf, hcur, hmode, hopcL, hopw, hrem, hplace, hrsp,
    hdin, hdout, hdoutTake, hrspTake⟩

end Sys2Proof.Proofs
end

section
/-! PROOFS. INIT (R60): the words of the examples read as commands, and the whole next state of INIT. -/

namespace Sys2Proof.Proofs

open Sys2Proof.Machine Sys2Proof.Laws

/-- Settles O5: the example words are those of the example commands. -/
theorem exampleWordsDecode : Obligations.ExampleWordsDecode :=
  ⟨decode_eq_command_iff.2 rfl, decode_eq_command_iff.2 rfl, decode_eq_command_iff.2 rfl⟩

/-- R6: the halves of a counter by their numbers. -/
theorem lo_eq_ofNat (c : U64) : lo c = BitVec.ofNat 32 c.toNat :=
  BitVec.eq_of_toNat_eq (by rw [toNat_lo, BitVec.toNat_ofNat])

theorem hi_eq_ofNat (c : U64) : hi c = BitVec.ofNat 32 (c.toNat / 2 ^ 32) :=
  BitVec.eq_of_toNat_eq (by rw [toNat_hi, BitVec.toNat_ofNat]; omega)

/-- Settles O22: the registers INIT writes and its response, the counter's halves as numbers. -/
theorem initResult : Obligations.InitResult := by
  intro k n c s hm
  rw [exec_init hm, initBody_eq, rspWrite_eq, rspWord_init_ok, ← lo_eq_ofNat, ← hi_eq_ofNat]
  rfl

end Sys2Proof.Proofs
end

section
/-! PROOFS. Between two INITs (R20, R62, R76, R77): a step is some number of block derivations, seen on KS, CTR and OVF;
the bytes they give are buffered or written by XOR (R80, R81). -/

namespace Sys2Proof.Proofs

open Sys2Proof.Machine Sys2Proof.Safety Sys2Proof.Laws

/-! ### Derivations one after the other (R76, R77) -/

/-- All that a derivation does: it answers while OVF is clear, and OVF is set exactly at the wrap. -/
theorem ksgen_eq_some_iff {s u : State} :
    ksgen s = some u ↔ s.ovf = false ∧
      u = { s with
        ksb := storeBlock (blockFn s.key s.nonce s.ctr) s.ksb
        ctr := s.ctr + 1
        ovf := decide (s.ctr = 0xFFFFFFFFFFFFFFFF) } := by
  rw [ksgen]
  cases ho : s.ovf with
  | true => simp
  | false => simp [incCounter, setCounter, inc64_eq, eq_comm]

/-- R13, R20: `d` derivations advance CTR by `d`; there are at most the blocks still derivable, and the last of them sets
OVF. -/
theorem derivations_count {d : Nat} {s u : State} (h : derivations d s = some u) :
    d ≤ derivable s ∧ u.ctr = s.ctr + BitVec.ofNat 64 d ∧ u.ovf = (s.ovf || decide (d = derivable s)) := by
  induction d generalizing u with
  | zero =>
    cases h
    refine ⟨Nat.zero_le _, (BitVec.add_zero _).symm, ?_⟩
    cases ho : s.ovf with
    | true => rfl
    | false =>
      rw [derivable, ho, Bool.false_or, if_neg Bool.false_ne_true]
      exact (decide_eq_false (by omega)).symm
  | succ d ih =>
    rw [derivations_succ, Option.bind_eq_some_iff] at h
    obtain ⟨v, hv, hu⟩ := h
    obtain ⟨hle, hctr, hovf⟩ := ih hv
    obtain ⟨hclear, rfl⟩ := ksgen_eq_some_iff.1 hu
    rw [hclear, eq_comm, Bool.or_eq_false_iff, decide_eq_false_iff_not] at hovf
    obtain ⟨ho, hne⟩ := hovf
    have hleft : derivable s = 2 ^ 64 - s.ctr.toNat := by rw [derivable, ho, if_neg Bool.false_ne_true]
    rw [hleft] at hle hne ⊢
    refine ⟨by omega, ?_, ?_⟩
    · dsimp only
      rw [hctr]; bv_omega
    · rw [ho, Bool.false_or]
      exact decide_eq_decide.2 (by rw [hctr]; bv_omega)

/-- From `s` to `t` KEY and NONCE stay, and KS, CTR and OVF become what `d` derivations leave. -/
structure Derives (d : Nat) (s t : State) : Prop where
  key : t.key = s.key
  nonce : t.nonce = s.nonce
  registers : ∃ u, derivations d s = some u ∧ t.ksb = u.ksb ∧ t.ctr = u.ctr ∧ t.ovf = u.ovf

theorem CipherKept.refl (s : State) : CipherKept s s := ⟨rfl, rfl, rfl, rfl, rfl, rfl, rfl⟩

theorem Derives.of_cipherKept {s t : State} (h : CipherKept s t) : Derives 0 s t :=
  ⟨h.key, h.nonce, s, rfl, h.ksb, h.ctr, h.ovf⟩

/-- A block derived is one derivation more (R77). -/
theorem Derives.derived {d : Nat} {s t : State} (h : Derives d s t) (ho : t.ovf = false) :
    Derives (d + 1) s (derived t) := by
  obtain ⟨hkey, hnonce, u, hu, hksb, hctr, hovf⟩ := h
  have hkey' : t.key = u.key := by rw [derivations_frame hu]; exact hkey
  have hnonce' : t.nonce = u.nonce := by rw [derivations_frame hu]; exact hnonce
  have hnext : derivations (d + 1) s = ksgen u := by rw [derivations_succ, hu, Option.bind_some]
  refine ⟨hkey, hnonce, _, hnext.trans (ksgen_eq_some_iff.2 ⟨hovf ▸ ho, rfl⟩), ?_, ?_, ?_⟩
  · simp [Laws.derived, hksb, hkey', hnonce', hctr]
  · simp [Laws.derived, inc64_eq, hctr]
  · simp [Laws.derived, inc64_eq, hctr, ho]

/-! ### The bytes of an XOR (R80, R81) -/

/-- An XOR in progress from `s` to `t` with `d` blocks derived: each byte of the buffer and of these blocks is still
buffered or has been written. -/
structure XorBytes (d : Nat) (s t : State) : Prop where
  opcL : t.opcL = 0x02
  cursor : t.cur.toNat ≤ 64
  bytes : buffered s + 64 * d + s.dout.length = buffered t + t.dout.length

theorem XorBytes.derived {d : Nat} {s t : State} (h : XorBytes d s t) (hc : 64 ≤ t.cur.toNat) :
    XorBytes (d + 1) s (derived t) := by
  refine ⟨h.opcL, Nat.zero_le _, ?_⟩
  have hused : buffered t = 0 := by unfold buffered; omega
  have hfull : buffered (Laws.derived t) = 64 := rfl
  have hdout : (Laws.derived t).dout = t.dout := rfl
  have hbytes := h.bytes
  rw [hfull, hdout]
  omega

/-- A byte put and done goes from the buffer to `dout` (R81). -/
theorem XorBytes.byteDone {d : Nat} {s t : State} (h : XorBytes d s t) (hc : t.cur.toNat < 64) (b : Byte) :
    XorBytes d s (byteDone (doutPut b t)) := by
  have hbytes := h.bytes
  have hone : buffered t = buffered (Machine.byteDone (doutPut b t)) + 1 := buffered_byteDone (s := doutPut b t) hc
  refine ⟨h.opcL, by rw [byteDone_cur, doutPut_cur]; bv_omega, ?_⟩
  rw [byteDone_dout, doutPut_dout, List.length_append, List.length_singleton]
  omega

/-- Some number of derivations; in a state of the invariant they account for the bytes of an XOR. -/
def XorDerives (s t : State) : Prop := ∃ d, Derives d s t ∧ (Inv s → XorBytes d s t)

theorem refill_xorDerives {s t u : State} (h : XorDerives s t) (hr : refill t = some u) : XorDerives s u := by
  obtain ⟨d, hd, hb⟩ := h
  rcases refill_cases t with ⟨-, ht⟩ | ⟨-, -, ht⟩ | ⟨hc, ho, ht⟩ <;> rw [ht] at hr <;> cases hr
  · exact ⟨d, hd, hb⟩
  · exact ⟨d + 1, hd.derived ho, fun hi => (hb hi).derived hc⟩

/-- Wherever XOR's loop stops, the bytes are accounted for. -/
theorem xorLoop_xorDerives {s t : State} (n : Nat) (h : XorDerives s t) : XorDerives s (xorLoop n t) := by
  refine xorLoop_induct (P := fun _ => XorDerives s) (Q := XorDerives s) ?done ?raise ?wait ?held ?turn n t h
  case done =>
    rintro t ⟨d, hd, hb⟩
    rw [rspWrite_eq]
    exact ⟨d, { hd with }, fun hi => { hb hi with }⟩
  case raise =>
    rintro _ t ⟨d, hd, hb⟩ _
    rw [raiseExhausted_eq]
    exact ⟨d, { hd with }, fun hi => { hb hi with }⟩
  case wait =>
    intro _ t u h hr _
    obtain ⟨d, hd, hb⟩ := refill_xorDerives h hr
    exact ⟨d, { hd with }, fun hi => { hb hi with }⟩
  case held =>
    intro _ t u b bs h hr _ _
    obtain ⟨d, hd, hb⟩ := refill_xorDerives h hr
    exact ⟨d, { hd with }, fun hi => { hb hi with }⟩
  case turn =>
    intro _ t u b bs h hr _ _
    obtain ⟨d, hd, hb⟩ := refill_xorDerives h hr
    have hc := (refill_refill hr).1
    have htake : Inv s → XorBytes d s (dinTake bs u) := fun hi => { hb hi with }
    exact ⟨d, { hd with }, fun hi => (htake hi).byteDone hc _⟩

/-! ### A whole step -/

/-- The bytes buffered before and those of `d` blocks are those buffered after and those XOR has written (R87). -/
def Accounted (d : Nat) (s t : State) : Prop :=
  buffered s + 64 * d = buffered t + (if t.opcL = 0x02 then t.dout.length - s.dout.length else 0)

/-- Some number of derivations; in a state of the invariant they account for the bytes. -/
def InLifetime (s t : State) : Prop := ∃ d, Derives d s t ∧ (Inv s → Accounted d s t)

/-- What leaves the Cipher State alone derives no block; it writes no byte of an XOR. -/
theorem CipherKept.inLifetime {s t : State} (h : CipherKept s t) (hdout : Inv s → t.opcL = 0x02 → t.dout = s.dout) :
    InLifetime s t := by
  refine ⟨0, .of_cipherKept h, fun hi => ?_⟩
  rw [Accounted, buffered, buffered, h.cur]
  split
  · next ho => rw [hdout hi ho]; omega
  · omega

/-- No transfer is undone, so that the bytes of an XOR can be counted off `dout` (R36). -/
theorem XorDerives.inLifetime {s t : State} (h : XorDerives s t) (hs : Stands s t) : InLifetime s t := by
  obtain ⟨d, hd, hb⟩ := h
  refine ⟨d, hd, fun hi => ?_⟩
  have hbytes := (hb hi).bytes
  have hlen := hs.dout.length_le
  rw [Accounted, if_pos (hb hi).opcL]
  omega

theorem xorResume_inLifetime {s : State} (hs : s.seq = .din) : InLifetime s (xorResume s) := by
  refine XorDerives.inLifetime (xorLoop_xorDerives _ ⟨0, .of_cipherKept (.refl s), fun hi => ?_⟩)
    (xorLoop_stands (.refl s) _)
  have hseq := hi.sequencer
  rw [SeqFits, hs] at hseq
  exact ⟨hseq.2.1, hi.cursor, rfl⟩

theorem xorResumeDout_inLifetime {s : State} {b : Byte} (hs : s.seq = .doutXor b) :
    InLifetime s (xorResumeDout b s) := by
  have hstands := xorResumeDout_stands b s
  rw [xorResumeDout] at hstands ⊢
  split
  · exact (CipherKept.refl s).inLifetime fun _ _ => rfl
  · next htake =>
    rw [if_neg htake] at hstands
    refine XorDerives.inLifetime
      (xorLoop_xorDerives _ ⟨0, { Derives.of_cipherKept (.refl s) with }, fun hi => ?_⟩) hstands
    have hseq := hi.sequencer
    rw [SeqFits, hs] at hseq
    obtain ⟨-, hopc, -, hcur⟩ := hseq
    exact XorBytes.byteDone ⟨hopc, hi.cursor, rfl⟩ (BitVec.lt_def.1 hcur) b

/-- Outside FAULT mode XOR, its words taken, is its refusal or its loop (R80). -/
theorem xorBody_inLifetime {s t : State} (hk : CipherKept s t) (hs : Stands s t) (hdout : t.dout = s.dout)
    (hm : t.mode ≠ .fault) (len : Word) : InLifetime s (xorBody len t) := by
  cases ht : t.mode with
  | uninit =>
    refine (hk.trans (xorBody_uninit_cipherKept ht len)).inLifetime fun _ _ => ?_
    rw [xorBody_uninit ht, rspWrite_dout, latchL_dout, hdout]
  | ready =>
    have hstands := xorBody_stands hs hm len
    have hkept := hk.trans (xorStart_cipherKept len t)
    rw [xorBody_eq_xorLoop ht] at hstands ⊢
    refine XorDerives.inLifetime (xorLoop_xorDerives _ ⟨0, .of_cipherKept hkept, fun hi => ⟨rfl, ?_, ?_⟩⟩) hstands
    · rw [hkept.cur]; exact hi.cursor
    · rw [buffered, buffered, hkept.cur, ← hdout]; rfl
  | fault => exact absurd ht hm

theorem blockEmit_opcL (bytes : List Byte) (s : State) : (blockEmit bytes s).opcL = s.opcL := by
  rcases blockEmit_cases bytes s with ⟨-, h⟩ | ⟨-, h⟩ <;> rw [h]
  exact rspWrite_opcL _ _

/-- BLOCK derives no block of the stream, and what it writes is no byte of an XOR (R90). -/
theorem blockEmit_inLifetime {s t : State} (h : CipherKept s t) (ho : Inv s → t.opcL = 0x03) (bytes : List Byte) :
    InLifetime s (blockEmit bytes t) := by
  refine (h.trans (blockEmit_cipherKept bytes t)).inLifetime fun hi hxor => ?_
  rw [blockEmit_opcL, ho hi] at hxor
  exact absurd hxor (by decide)

/-- Where words are taken, the step has run an INIT or derived some number of blocks. -/
theorem tookWords_inLifetime {s t : State} {taken : List Word} (hm : s.mode ≠ .fault) (ht : takenAt s taken)
    (h : tookWords s t taken) :
    InLifetime s t ∨ ∃ k n c u, fetch s = .run (.init k n c) u ∧ t = initBody k n c u := by
  rcases h with ⟨i, rest, hd, hfetch, he⟩ | ⟨w, -, rfl⟩ | ⟨w, ops, -, -, rfl⟩
  · have hkept : CipherKept s { s with cmd := rest, seq := .header } := ⟨rfl, rfl, rfl, rfl, rfl, rfl, rfl⟩
    have hmode : ({ s with cmd := rest, seq := .header } : State).mode ≠ .fault := hm
    cases i with
    | init k n c =>
      rw [exec_init hmode] at he; cases he
      exact .inr ⟨k, n, c, _, hfetch, rfl⟩
    | xor len =>
      rw [exec_xor hmode] at he; cases he
      exact .inl (xorBody_inLifetime hkept { Stands.refl s with cmd := rest_suffix ht hd } rfl hmode len)
    | block k n c =>
      rw [exec_block hmode] at he; cases he
      exact .inl (blockEmit_inLifetime (hkept.trans (latchK_cipherKept 0x03 k n c _)) (fun _ => rfl) _)
  · have hkept : CipherKept s { s with cmd := s.cmd.tail, seq := .header } := ⟨rfl, rfl, rfl, rfl, rfl, rfl, rfl⟩
    refine .inl ((hkept.trans (refuseIllegal_cipherKept w _)).inLifetime fun _ _ => ?_)
    rw [refuseIllegal_eq]
  · exact .inl ((latchPartial_cipherKept w ops s).inLifetime fun _ _ => rfl)

/-- A step that is no reset has run an INIT or derived some number of blocks (R62). -/
theorem step_inLifetime {s t : State} (hr : s.rst = false) (h : step s = .next t) :
    InLifetime s t ∨ ∃ k n c u, fetch s = .run (.init k n c) u ∧ t = initBody k n c u := by
  rcases step_cases hr h with
    ⟨rfl, -⟩ | ⟨hm, taken, ht, htook⟩ | ⟨hs, rfl⟩ | ⟨b, hs, rfl⟩ | ⟨bytes, hs, rfl⟩ | ⟨w, -, rfl⟩
  · exact .inl ((CipherKept.refl _).inLifetime fun _ _ => rfl)
  · exact tookWords_inLifetime hm ht htook
  · exact .inl (xorResume_inLifetime hs)
  · exact .inl (xorResumeDout_inLifetime hs)
  · refine .inl (blockEmit_inLifetime (.refl s) (fun hi => ?_) bytes)
    have hseq := hi.sequencer
    rw [SeqFits, hs] at hseq
    exact hseq.2.1
  · exact .inl ((rspWrite_cipherKept w s).inLifetime fun _ _ => rspWrite_dout w s)

/-- R20: with OVF set no block is derivable, and CTR stays. -/
theorem Derives.of_ovf {d : Nat} {s t : State} (h : Derives d s t) (ho : s.ovf = true) :
    t.ovf = true ∧ t.ctr = s.ctr := by
  obtain ⟨-, -, u, hu, -, hctr, hovf⟩ := h
  obtain ⟨hle, hcount, hset⟩ := derivations_count hu
  rw [derivable, if_pos ho, Nat.le_zero] at hle
  refine ⟨by rw [hovf, hset, ho, Bool.true_or], ?_⟩
  rw [hctr, hcount, hle]
  exact BitVec.add_zero _

/-- Settles O50: what the derivations of a step come to by their number; or the operands of its INIT. -/
theorem lifetimeFixed : Obligations.LifetimeFixed := by
  intro s t h hr
  rcases step_inLifetime hr h with ⟨d, hd, hbytes⟩ | ⟨k, n, c, u, hfetch, rfl⟩
  · obtain ⟨u, hu, hksb, hctr, hovf⟩ := hd.registers
    obtain ⟨hle, hcount, hset⟩ := derivations_count hu
    exact .inl ⟨hd.key, hd.nonce, hd.of_ovf, d, u, hu, hksb, hctr, hovf, hle, hctr.trans hcount, hovf.trans hset,
      hbytes⟩
  · refine .inr ⟨k, n, c, u, hfetch, ?_⟩
    simp [initBody_eq, initRegs]

end Sys2Proof.Proofs
end

section
/-! PROOFS. The block permutation (R65 to R70): a quarter-round is eight assignments of one shape, word `i` becoming a
function of itself and of word `j`. Its values, its inverse and what it commutes with follow from those of one assignment. -/

namespace Sys2Proof.Proofs

open Sys2Proof.Machine

/-! ### One assignment (R65) -/

/-- The shape of the eight assignments of R65: word `i` becomes `f` of itself and word `j`. -/
def assign (f : Word → Word → Word) (i j : Fin 16) (x : Block) : Block := x.set i (f x[i] x[j])

/-- Beside `add32`, the function the assignments apply: XOR, then rotate. -/
def xorRotl (n : Nat) (v w : Word) : Word := rotl (v ^^^ w) n

/-- R65 as a composition, the first assignment innermost. -/
theorem qr_eq_comp (a b c d : Fin 16) :
    qr a b c d =
      assign (xorRotl 7) b c ∘ assign add32 c d ∘ assign (xorRotl 8) d a ∘ assign add32 a b ∘
      assign (xorRotl 12) b c ∘ assign add32 c d ∘ assign (xorRotl 16) d a ∘ assign add32 a b := rfl

/-- What holds of the assignments and is kept by composition holds of the quarter-round. -/
theorem qr_of_assignments {P : (Block → Block) → Prop} {a b c d : Fin 16}
    (comp : ∀ {F G : Block → Block}, P F → P G → P (F ∘ G)) (ab : P (assign add32 a b)) (cd : P (assign add32 c d))
    (da : ∀ n, n ≤ 32 → P (assign (xorRotl n) d a)) (bc : ∀ n, n ≤ 32 → P (assign (xorRotl n) b c)) :
    P (qr a b c d) := by
  have first : P (assign (xorRotl 12) b c ∘ assign add32 c d ∘ assign (xorRotl 16) d a ∘ assign add32 a b) :=
    comp (bc 12 (by decide)) (comp cd (comp (da 16 (by decide)) ab))
  rw [qr_eq_comp]
  exact comp (bc 7 (by decide)) (comp cd (comp (da 8 (by decide)) (comp ab first)))

@[simp] theorem getElem_assign_same (f : Word → Word → Word) (i j : Fin 16) (x : Block) :
    (assign f i j x)[i.val] = f x[i.val] x[j.val] :=
  Vector.getElem_set_self i.isLt

@[simp] theorem getElem_assign_ne (f : Word → Word → Word) {i k : Fin 16} (j : Fin 16) (x : Block) (h : k ≠ i) :
    (assign f i j x)[k.val] = x[k.val] :=
  Vector.getElem_set_ne i.isLt k.isLt fun hik => h (Fin.ext hik.symm)

theorem block_ext {x y : Block} (h : ∀ k : Fin 16, x[k.val] = y[k.val]) : x = y :=
  Vector.ext fun k hk => h ⟨k, hk⟩

/-- Settles O11: each word is read off the last assignment to it, whose operands are read off those before. -/
theorem quarterRoundValues : Obligations.QuarterRoundValues := by
  intro a b c d x hab hac had hbc hbd hcd a1 d1 c1 b1 a2 d2 c2 b2
  rw [qr_eq_comp]
  refine ⟨?_, ?_, ?_, ?_, fun e hea heb hec hed => by simp [hea, heb, hec, hed]⟩ <;>
    simp [hab, hab.symm, hac, hac.symm, had, had.symm, hbc, hbc.symm, hbd, hbd.symm, hcd, hcd.symm,
      xorRotl, a1, b1, c1, d1, a2, b2, c2, d2]

/-! ### Disjoint quadruples (R66, R67, R70) -/

/-- Two assignments commute where neither writes a word the other reads or writes. -/
theorem assign_commute (f g : Word → Word → Word) {i j k l : Fin 16} (hik : i ≠ k) (hil : i ≠ l) (hjk : j ≠ k) :
    Function.Commute (assign f i j) (assign g k l) := by
  refine fun x => block_ext fun m => ?_
  by_cases hmi : m = i
  · subst hmi
    simp [hik, hjk]
  by_cases hmk : m = k
  · subst hmk
    simp [hik.symm, hil.symm]
  · simp [hmi, hmk]

/-- An assignment that neither writes nor reads a word of a quarter-round commutes with it. -/
theorem assign_commute_qr (f : Word → Word → Word) {i j a b c d : Fin 16} (hi : i ∉ [a, b, c, d])
    (hj : j ∉ [a, b, c, d]) : Function.Commute (assign f i j) (qr a b c d) := by
  simp only [List.mem_cons, List.not_mem_nil, or_false, not_or] at hi hj
  obtain ⟨hia, hib, hic, hid⟩ := hi
  obtain ⟨hja, hjb, hjc, hjd⟩ := hj
  exact qr_of_assignments .comp_right (assign_commute f _ hia hib hja) (assign_commute f _ hic hid hjc)
    (fun _ _ => assign_commute f _ hid hia hjd) (fun _ _ => assign_commute f _ hib hic hjb)

theorem qr_commute {a b c d a' b' c' d' : Fin 16} (h : List.Disjoint [a, b, c, d] [a', b', c', d']) :
    Function.Commute (qr a b c d) (qr a' b' c' d') := by
  have apart {f i j} (hi : i ∈ [a, b, c, d]) (hj : j ∈ [a, b, c, d]) :
      Function.Commute (assign f i j) (qr a' b' c' d') :=
    assign_commute_qr f (h hi) (h hj)
  exact qr_of_assignments (P := (Function.Commute · (qr a' b' c' d'))) .comp_left (apart (by simp) (by simp))
    (apart (by simp) (by simp)) (fun _ _ => apart (by simp) (by simp)) (fun _ _ => apart (by simp) (by simp))

/-- Settles O12: of eight distinct indices the two quadruples are disjoint. -/
theorem lanesCommute : Obligations.LanesCommute := by
  intro a b c d a' b' c' d' x h
  exact qr_commute (List.disjoint_of_nodup_append (l₁ := [a, b, c, d]) h) x

/-! ### The rounds undone (R65 corner case (e), R69 corner case (b)) -/

/-- Rotating on by the rest of the word's width comes back. -/
theorem rotl_rotl {n m : Nat} (h : n + m = 32) (v : Word) : rotl (rotl v n) m = v := by
  refine BitVec.eq_of_getLsbD_eq fun i hi => ?_
  have hpos : ((i + n) % 32 + m) % 32 = i := by omega
  have hback := getLsbD_rotl (rotl v n) (n := m) (by omega) (Nat.mod_lt (i + n) (by decide : 0 < 32))
  rw [hpos] at hback
  exact hback.trans (getLsbD_rotl v (by omega) hi)

/-- Word `j` stays, so what undoes `f` at each value of word `j` undoes the assignment. -/
theorem assign_leftInverse {f g : Word → Word → Word} (h : ∀ v w, g (f v w) w = v) {i j : Fin 16} (hij : i ≠ j) :
    Function.LeftInverse (assign g i j) (assign f i j) := by
  refine fun x => block_ext fun k => ?_
  by_cases hk : k = i
  · subst hk
    simp [hij.symm, h]
  · simp [hk]

theorem assign_bijective {f g : Word → Word → Word} (hgf : ∀ v w, g (f v w) w = v) (hfg : ∀ v w, f (g v w) w = v)
    {i j : Fin 16} (hij : i ≠ j) : Function.Bijective (assign f i j) :=
  Function.bijective_iff_has_inverse.mpr ⟨assign g i j, assign_leftInverse hgf hij, assign_leftInverse hfg hij⟩

theorem assign_add32_bijective {i j : Fin 16} (hij : i ≠ j) : Function.Bijective (assign add32 i j) :=
  assign_bijective (g := fun v w => v - w) BitVec.add_sub_cancel BitVec.sub_add_cancel hij

theorem assign_xorRotl_bijective {n : Nat} (hn : n ≤ 32) {i j : Fin 16} (hij : i ≠ j) :
    Function.Bijective (assign (xorRotl n) i j) := by
  refine assign_bijective (g := fun v w => rotl v (32 - n) ^^^ w) (fun v w => ?_) (fun v w => ?_) hij
  · simp [xorRotl, rotl_rotl (Nat.add_sub_cancel' hn)]
  · simp [xorRotl, rotl_rotl (Nat.sub_add_cancel hn)]

theorem qr_bijective (a b c d : Fin 16) (h : [a, b, c, d].Nodup) : Function.Bijective (qr a b c d) := by
  have hab : a ≠ b := by grind
  have hbc : b ≠ c := by grind
  have hcd : c ≠ d := by grind
  have hda : d ≠ a := by grind
  exact qr_of_assignments .comp (assign_add32_bijective hab) (assign_add32_bijective hcd)
    (fun _ hn => assign_xorRotl_bijective hn hda) (fun _ hn => assign_xorRotl_bijective hn hbc)

theorem column_bijective : Function.Bijective column :=
  (qr_bijective 3 7 11 15 (by decide)).comp <| (qr_bijective 2 6 10 14 (by decide)).comp <|
    (qr_bijective 1 5 9 13 (by decide)).comp (qr_bijective 0 4 8 12 (by decide))

theorem diagonal_bijective : Function.Bijective diagonal :=
  (qr_bijective 3 4 9 14 (by decide)).comp <| (qr_bijective 2 7 8 13 (by decide)).comp <|
    (qr_bijective 1 6 11 12 (by decide)).comp (qr_bijective 0 5 10 15 (by decide))

theorem dround_bijective : Function.Bijective dround := diagonal_bijective.comp column_bijective

theorem drounds_bijective (n : Nat) : Function.Bijective (drounds n) := by
  induction n with
  | zero => exact Function.bijective_id
  | succ n ih => exact ih.comp dround_bijective

/-- Settles O13: each assignment of a quarter-round can be undone, so each double round can, and so can ten of them. -/
theorem permuteBijective : Obligations.PermuteBijective := drounds_bijective Config.doubleRounds

end Sys2Proof.Proofs
end

section
/-! PROOFS. Block derivation (R75 to R79): the matrix sees the index by its halves, the block is laid out word by word,
and the counter and the buffer after one KSGEN. -/

namespace Sys2Proof.Proofs

open Sys2Proof.Machine Sys2Proof.Laws

/-! ### The index and the first nonce word (R75) -/

/-- Taking `2^32 * d` off an index takes `d` off its high half, modulo 2^32, and leaves its low half. -/
theorem sub_high_eq_joinCtr (c : U64) (d : Word) :
    c - BitVec.ofNat 64 (2 ^ 32 * d.toNat) = joinCtr (hi c - d) (lo c) := by
  refine BitVec.eq_of_toNat_eq ?_
  rw [BitVec.toNat_sub, BitVec.toNat_ofNat, toNat_joinCtr, BitVec.toNat_sub, toNat_hi, toNat_lo]
  omega

/-- R15: the index enters the matrix by its low half in word 12 and by its high half in the sum of word 13. -/
theorem matrix_congr (k : Key) {n0 n0' : Word} (n1 n2 : Word) {c c' : U64} (hlo : lo c = lo c')
    (hsum : add32 n0 (hi c) = add32 n0' (hi c')) : matrix k #v[n0, n1, n2] c = matrix k #v[n0', n1, n2] c' := by
  simp [matrix, hlo, hsum]

/-- What the nonce word gains and the high half loses cancels in their sum. -/
theorem add32_add32_sub (n d h : Word) : add32 (add32 n d) (h - d) = add32 n h := by
  rw [add32, add32, add32, BitVec.add_assoc, BitVec.add_comm d, BitVec.sub_add_cancel]

/-- Settles O16: the two matrices agree in words 12 and 13, so the blocks are equal. As the sums are modulo 2^32, the
premise on `d` is not needed. -/
theorem nonceCounterAlias : Obligations.NonceCounterAlias := by
  intro k n0 n1 n2 d c _
  have hmatrix := matrix_congr k n1 n2 (n0 := n0) (n0' := add32 n0 d)
    (lo_joinCtr (hi c - d) (lo c)).symm (by rw [hi_joinCtr, add32_add32_sub])
  rw [blockFn, blockFn, sub_high_eq_joinCtr, hmatrix]

/-! ### The bytes of a block (R78) -/

/-- R78: byte `4i + j` of a block laid out as bytes is byte `j` of its word `i`. -/
theorem getD_bytesOf_lane (z : Block) (i : Fin 16) {j : Nat} (hj : j < 4) :
    (bytesOf z).getD (4 * i.val + j) 0 = wordByte z[i] j := by
  have word : z.toList.getD i.val 0 = z[i] := by
    rw [List.getD_eq_getElem _ _ (by simp), Vector.getElem_toList, Fin.getElem_fin]
  rw [getD_bytesOf, show (4 * i.val + j) / 4 = i.val by omega, show (4 * i.val + j) % 4 = j by omega, word]

/-- Settles O17: the layout is that of any block, here of BlockFn's. -/
theorem blockBytesLayout : Obligations.BlockBytesLayout :=
  fun k n c => ⟨length_bytesOf (blockFn k n c), fun i j => getD_bytesOf_lane (blockFn k n c) i j.isLt⟩

/-! ### The counter and the derivation (R76, R77) -/

/-- Settles O18: the incrementer writes what `inc64` gives, which is the sum and the wrap. -/
theorem incrementWithOverflow : Obligations.IncrementWithOverflow := by
  intro s
  rw [incCounter, inc64_eq]
  rfl

/-- R77: with OVF set a derivation raises. -/
theorem ksgen_eq_none {s : State} (h : s.ovf = true) : ksgen s = none := if_pos h

/-- Settles O20: KSGEN's answer is known in full; the block it stores reads back as words and as bytes. -/
theorem derivationResult : Obligations.DerivationResult := by
  intro s hm
  refine ⟨ksgen_eq_none, fun ho => ⟨_, ksgen_eq_some_iff.2 ⟨ho, rfl⟩, wf_storeBlock _ hm, ?words, ?bytes, rfl⟩⟩
  case words => exact ksWord_of_storeBlock rfl hm
  case bytes => exact fun a => memRead1_storeBlock _ a hm

/-- Settles O21: at the last index the increment wraps to 0 and sets OVF, by which the next derivation raises. -/
theorem lastBlockThenRaise : Obligations.LastBlockThenRaise := by
  intro s ho hc
  have wrapped : decide (s.ctr = 0xFFFFFFFFFFFFFFFF) = true := decide_eq_true hc
  refine ⟨_, ksgen_eq_some_iff.2 ⟨ho, rfl⟩, ?_, wrapped, ksgen_eq_none wrapped⟩
  exact congrArg (· + 1) hc

end Sys2Proof.Proofs
end

section
/-! PROOFS. The end state of an XOR chunk (R87): with every byte offered and taken, the loop is followed by the number
of bytes done and of blocks derived, the first of which fixes the second. -/

namespace Sys2Proof.Proofs

open Sys2Proof.Machine Sys2Proof.Safety Sys2Proof.Laws

/-! ### What derivations leave (R77) -/

theorem derivations_wf {d : Nat} {s u : State} (hm : Memory.wf s.ksb = true) (h : derivations d s = some u) :
    Memory.wf u.ksb = true := by
  induction d generalizing u with
  | zero => cases h; exact hm
  | succ d ih =>
    rw [derivations_succ, Option.bind_eq_some_iff] at h
    obtain ⟨v, hv, hu⟩ := h
    obtain ⟨-, rfl⟩ := ksgen_eq_some_iff.1 hu
    exact wf_storeBlock _ (ih hv)

/-- The last of the derivations leaves its block in the buffer. -/
theorem derivations_ksWord {d : Nat} {s u : State} (hm : Memory.wf s.ksb = true) (h : derivations (d + 1) s = some u)
    (i : Fin 16) : ksWord u i = (blockFn s.key s.nonce (s.ctr + BitVec.ofNat 64 d))[i] := by
  rw [derivations_succ, Option.bind_eq_some_iff] at h
  obtain ⟨v, hv, hu⟩ := h
  have hkey : v.key = s.key := by rw [derivations_frame hv]
  have hnonce : v.nonce = s.nonce := by rw [derivations_frame hv]
  obtain ⟨-, hctr, -⟩ := derivations_count hv
  rw [← hkey, ← hnonce, ← hctr]
  obtain ⟨-, rfl⟩ := ksgen_eq_some_iff.1 hu
  exact ksWord_of_storeBlock rfl (derivations_wf hm hv) i

theorem Derives.count {d : Nat} {s t : State} (h : Derives d s t) :
    d ≤ derivable s ∧ t.ctr = s.ctr + BitVec.ofNat 64 d ∧ t.ovf = (s.ovf || decide (d = derivable s)) := by
  obtain ⟨-, -, u, hu, -, hctr, hovf⟩ := h
  rw [hctr, hovf]
  exact derivations_count hu

theorem Derives.wf {d : Nat} {s t : State} (h : Derives d s t) (hm : Memory.wf s.ksb = true) :
    Memory.wf t.ksb = true := by
  obtain ⟨-, -, u, hu, hksb, -⟩ := h
  rw [hksb]
  exact derivations_wf hm hu

theorem Derives.ksWord {d : Nat} {s t : State} (h : Derives d s t) (hm : Memory.wf s.ksb = true) (hd : d ≠ 0)
    (i : Fin 16) : ksWord t i = (blockFn s.key s.nonce (s.ctr + BitVec.ofNat 64 (d - 1)))[i] := by
  obtain ⟨-, -, u, hu, hksb, -⟩ := h
  obtain ⟨d, rfl⟩ := Nat.exists_eq_succ_of_ne_zero hd
  rw [Nat.succ_sub_one, ← derivations_ksWord hm hu i, Machine.ksWord, Machine.ksWord, hksb]

/-! ### The turns of the loop, counted (R80, R81) -/

/-- XOR in READY mode is its loop. -/
theorem exec_xor_ready {s : State} (h : s.mode = .ready) (len : Word) :
    exec (.xor len) s = .next (xorLoop len.toNat (xorStart len s)) := by
  rw [exec_xor (by simp [h]), xorBody_eq_xorLoop h]

/-- From `s` to `t`, the start of XOR's loop and a point between two of its turns: `k` bytes are done and `d` blocks
derived, each only when a byte asked for it. -/
structure XorDone (d k : Nat) (s t : State) : Prop where
  derives : Derives d s t
  bytes : XorBytes d s t
  moved : BytesMoved k 0 s t
  onDemand : d ≠ 0 → buffered t < 64
  mode : t.mode = s.mode
  rem : t.rem.toNat + k = s.rem.toNat
  doutTake : t.doutTake + k = s.doutTake
  rsp : t.rsp = s.rsp
  rspTake : t.rspTake = s.rspTake

theorem XorDone.refl {s : State} (hopc : s.opcL = 0x02) (hc : s.cur ≤ 64) : XorDone 0 0 s s :=
  ⟨.of_cipherKept (.refl s), ⟨hopc, hc, rfl⟩, .refl s, fun h => absurd rfl h, rfl, rfl, rfl, rfl, rfl⟩

/-- The first part of a turn derives one block more or none, and the bytes stay accounted for. -/
theorem refill_derives {d : Nat} {s t u : State} (hd : Derives d s t) (hb : XorBytes d s t) (hr : refill t = some u) :
    ∃ e, Derives e s u ∧ XorBytes e s u := by
  rcases refill_cases t with ⟨-, ht⟩ | ⟨-, -, ht⟩ | ⟨hc, ho, ht⟩ <;> rw [ht] at hr <;> cases hr
  · exact ⟨d, hd, hb⟩
  · exact ⟨d + 1, hd.derived ho, hb.derived hc⟩

/-- A turn with a byte owed, offered and taken is one byte more done. -/
theorem XorDone.turn {d k : Nat} {s t u : State} {b : Byte} {bs : List Byte} (h : XorDone d k s t)
    (hk : k < s.rem.toNat) (hr : refill t = some u) (hdin : u.din = b :: bs) (htake : u.doutTake ≠ 0) :
    ∃ e, XorDone e (k + 1) s (turned b bs u) := by
  obtain ⟨e, hde, hbe⟩ := refill_derives h.derives h.bytes hr
  have hc := (refill_refill hr).1
  have htaken : XorBytes e s (dinTake bs u) := { hbe with }
  have hone : buffered u = buffered (turned b bs u) + 1 :=
    buffered_byteDone (s := doutPut (b ^^^ keystreamByte u) (dinTake bs u)) hc
  have hrem : u.rem.toNat + k = s.rem.toNat := by rw [refill_frame hr]; exact h.rem
  have hsum : u.doutTake + k = s.doutTake := by rw [refill_frame hr]; exact h.doutTake
  refine ⟨e, { hde with }, htaken.byteDone hc _,
    (doutPut_bytesMoved (dinTake_bytesMoved (refill_bytesMoved h.moved hr) hdin) _).of_kept rfl rfl,
    fun _ => ?onDemand, ?mode, ?rem, ?doutTake, ?rsp, ?rspTake⟩
  case onDemand => rw [buffered] at hone; omega
  case mode => exact (congrArg State.mode (refill_frame hr)).trans h.mode
  case rem => rw [turned, byteDone_rem, doutPut_rem, dinTake_rem]; bv_omega
  case doutTake => rw [turned, byteDone_doutTake, doutPut_doutTake, dinTake_doutTake]; omega
  case rsp => exact (congrArg State.rsp (refill_frame hr)).trans h.rsp
  case rspTake => exact (congrArg State.rspTake (refill_frame hr)).trans h.rspTake

/-- The two ends of an XOR of `n` bytes that never waits: all of them done, or the derivation for the next raises. -/
def XorEnds (n : Nat) (s t : State) : Prop :=
  ∃ d k u, XorDone d k s u ∧
    ((k = n ∧ t = rspWrite 0x00000200 u) ∨
      (k < n ∧ refill u = none ∧ t = rspWrite 0x00000203 { u with mode := .fault }))

/-- With every byte offered and taken the loop does not wait, and has one of the two ends (R80). -/
theorem xorLoop_ends {n : Nat} {s : State} (hrem : s.rem.toNat = n) (hopc : s.opcL = 0x02) (hc : s.cur ≤ 64)
    (hdin : n ≤ s.din.length) (htake : n ≤ s.doutTake) : XorEnds n s (xorLoop n s) := by
  refine xorLoop_induct (P := fun m t => ∃ d k, k + m = n ∧ XorDone d k s t) (Q := XorEnds n s)
    ?done ?raise ?wait ?held ?turn n s ⟨0, 0, Nat.zero_add n, .refl hopc hc⟩
  case done => rintro t ⟨d, k, hk, h⟩; exact ⟨d, k, t, h, .inl ⟨hk, by rw [rspWord_xor_ok]⟩⟩
  case raise =>
    rintro m t ⟨d, k, hk, h⟩ hr
    exact ⟨d, k, t, h, .inr ⟨by omega, hr, by rw [raiseExhausted, h.bytes.opcL, rspWord_xor_exhausted]⟩⟩
  case wait =>
    rintro m t u ⟨d, k, hk, h⟩ hr hnil
    have hrest := congrArg List.length (refill_bytesMoved h.moved hr).din
    rw [hnil, List.length_drop, List.length_nil] at hrest
    omega
  case held =>
    rintro m t u b bs ⟨d, k, hk, h⟩ hr - hzero
    have hsum : u.doutTake + k = s.doutTake := by rw [refill_frame hr]; exact h.doutTake
    omega
  case turn =>
    rintro m t u b bs ⟨d, k, hk, h⟩ hr hcons hne
    obtain ⟨e, he⟩ := h.turn (by omega) hr hcons hne
    exact ⟨e, k + 1, by omega, he⟩

/-! ### The number of derivations (R87) -/

/-- The bytes buffered and those of the blocks derived are buffered still or done. -/
theorem XorDone.account {d k : Nat} {s t : State} (h : XorDone d k s t) : buffered s + 64 * d = buffered t + k := by
  have hbytes := h.bytes.bytes
  have hcount := h.moved.count
  omega

/-- With all the bytes done none is owed (R80). -/
theorem XorDone.rem_eq_zero {d n : Nat} {s t : State} (h : XorDone d n s t) (hn : s.rem.toNat = n) : t.rem = 0 := by
  have hrem := h.rem
  bv_omega

/-- No block is derived for a byte that is buffered. -/
theorem XorDone.eq_zero {d k : Nat} {s t : State} (h : XorDone d k s t) (hk : k ≤ buffered s) : d = 0 := by
  have haccount := h.account
  have hdemand := h.onDemand
  omega

/-- R87: the blocks derived are those the bytes past the buffer need. -/
theorem XorDone.eq_needed {d k : Nat} {s t : State} (h : XorDone d k s t) (hk : buffered s < k) :
    d ≠ 0 ∧ d = needed s k := by
  have haccount := h.account
  have hdemand := h.onDemand
  rw [needed]
  omega

/-- R104: where the derivation raises, the buffer is used up and every block derivable has been derived. -/
theorem XorDone.eq_derivable {d k : Nat} {s t : State} (h : XorDone d k s t) (hr : refill t = none) :
    d = derivable s ∧ t.cur = 64 ∧ t.ovf = true ∧ k = buffered s + 64 * derivable s := by
  rcases refill_cases t with ⟨-, ht⟩ | ⟨hc, ho, -⟩ | ⟨-, -, ht⟩
  · cases ht.symm.trans hr
  · obtain ⟨hle, -, hovf⟩ := h.derives.count
    have hall : d = derivable s := by
      rw [ho, eq_comm, Bool.or_eq_true, decide_eq_true_iff] at hovf
      refine hovf.elim (fun hs => ?_) id
      rw [derivable, if_pos hs] at hle ⊢
      exact Nat.le_zero.1 hle
    have haccount := h.account
    have hcursor := h.bytes.cursor
    have hused : buffered t = 0 := by rw [buffered]; omega
    exact ⟨hall, by bv_omega, ho, by omega⟩
  · cases ht.symm.trans hr

/-- R13, R20: a counter advanced by all the blocks derivable has wrapped, or had wrapped before. -/
theorem ctr_add_derivable (s : State) :
    s.ctr + BitVec.ofNat 64 (derivable s) = if derivable s = 0 then s.ctr else 0 := by
  rw [derivable]
  split
  · simp
  · rw [if_neg (by omega)]; bv_omega

/-! ### The three cases (R87) -/

/-- All bytes done within the buffer: nothing is derived. -/
theorem XorDone.within {d n : Nat} {s u : State} (h : XorDone d n s u) (hc : s.cur ≤ 64) (hn : n ≤ buffered s) :
    u.cur.toNat = s.cur.toNat + n ∧ u.ctr = s.ctr ∧ u.ovf = s.ovf ∧ u.ksb = s.ksb := by
  have haccount := h.account
  have hcursor := h.bytes.cursor
  cases h.eq_zero hn
  obtain ⟨-, -, v, hv, hksb, hctr, hovf⟩ := h.derives
  cases hv
  refine ⟨?_, hctr, hovf, hksb⟩
  have hstart : s.cur.toNat ≤ 64 := hc
  unfold buffered at haccount hn
  omega

/-- All bytes done, some of them past the buffer: the blocks they need are derived, the last is in the buffer. -/
theorem XorDone.past {d n : Nat} {s u : State} (h : XorDone d n s u) (hm : Memory.wf s.ksb = true)
    (hn : buffered s < n) :
    needed s n ≤ derivable s ∧
    u.ctr = s.ctr + BitVec.ofNat 64 (needed s n) ∧ u.ovf = (s.ovf || decide (needed s n = derivable s)) ∧
    u.cur.toNat = n - buffered s - 64 * (needed s n - 1) ∧
    ∀ i : Fin 16, ksWord u i = (blockFn s.key s.nonce (s.ctr + BitVec.ofNat 64 (needed s n - 1)))[i] := by
  obtain ⟨hd, hneed⟩ := h.eq_needed hn
  rw [← hneed]
  obtain ⟨hle, hctr, hovf⟩ := h.derives.count
  have haccount := h.account
  have hcursor := h.bytes.cursor
  have hleft : u.cur.toNat = 64 - buffered u := by rw [buffered]; omega
  exact ⟨hle, hctr, hovf, by omega, h.derives.ksWord hm hd⟩

@[simp] theorem ksWord_rspWrite (w : Word) (s : State) (i : Fin 16) : ksWord (rspWrite w s) i = ksWord s i := by
  rw [ksWord, ksWord, rspWrite_ksb]

/-- What the two ends have in common. -/
theorem XorEnds.frame {n : Nat} {s t : State} (h : XorEnds n s t) (hrsp : s.rspTake ≠ 0) :
    t.seq = .header ∧ t.rspTake = s.rspTake - 1 ∧ t.doutTake + t.dout.length = s.doutTake + s.dout.length := by
  obtain ⟨d, k, u, h, hend⟩ := h
  have hcount := h.moved.count
  have hsum := h.doutTake
  rcases hend with ⟨-, rfl⟩ | ⟨-, -, rfl⟩ <;> simp [h.rspTake, hrsp] <;> omega

/-- R87, first case: the bytes are all buffered. -/
theorem XorEnds.within {n : Nat} {s t : State} (h : XorEnds n s t) (hc : s.cur ≤ 64) (hrem : s.rem.toNat = n)
    (hrsp : s.rspTake ≠ 0) (hn : n ≤ buffered s) :
    t.cur.toNat = s.cur.toNat + n ∧ t.ctr = s.ctr ∧ t.ovf = s.ovf ∧ t.ksb = s.ksb ∧ t.mode = s.mode ∧ t.rem = 0 ∧
    t.rsp = s.rsp ++ [0x00000200] ∧ t.din = s.din.drop n ∧ t.dout.length = s.dout.length + n := by
  obtain ⟨d, k, u, h, ⟨rfl, rfl⟩ | ⟨hk, hr, -⟩⟩ := h
  · obtain ⟨hcur, hctr, hovf, hksb⟩ := h.within hc hn
    simp [hcur, hctr, hovf, hksb, h.mode, h.rem_eq_zero hrem, h.rsp, h.rspTake, hrsp, h.moved.din, ← h.moved.count]
  · obtain ⟨-, -, -, hall⟩ := h.eq_derivable hr
    omega

/-- R87, second case: the blocks the bytes need can all be derived. -/
theorem XorEnds.past {n : Nat} {s t : State} (h : XorEnds n s t) (hm : Memory.wf s.ksb = true)
    (hrem : s.rem.toNat = n) (hrsp : s.rspTake ≠ 0) (hn : buffered s < n) (hd : needed s n ≤ derivable s) :
    t.ctr = s.ctr + BitVec.ofNat 64 (needed s n) ∧ t.ovf = (s.ovf || decide (needed s n = derivable s)) ∧
    t.cur.toNat = n - buffered s - 64 * (needed s n - 1) ∧
    (∀ i : Fin 16, ksWord t i = (blockFn s.key s.nonce (s.ctr + BitVec.ofNat 64 (needed s n - 1)))[i]) ∧
    t.mode = s.mode ∧ t.rem = 0 ∧
    t.rsp = s.rsp ++ [0x00000200] ∧ t.din = s.din.drop n ∧ t.dout.length = s.dout.length + n := by
  obtain ⟨d, k, u, h, ⟨rfl, rfl⟩ | ⟨hk, hr, -⟩⟩ := h
  · obtain ⟨-, hctr, hovf, hcur, hword⟩ := h.past hm hn
    simp [hcur, hctr, hovf, hword, h.mode, h.rem_eq_zero hrem, h.rsp, h.rspTake, hrsp, h.moved.din, ← h.moved.count]
  · obtain ⟨-, -, -, hall⟩ := h.eq_derivable hr
    rw [needed] at hd
    omega

/-- R87, third case: the bytes need a block too many, for which the derivation raises. -/
theorem XorEnds.exhausted {n : Nat} {s t : State} (h : XorEnds n s t) (hm : Memory.wf s.ksb = true)
    (hrem : s.rem.toNat = n) (hrsp : s.rspTake ≠ 0) (hn : buffered s < n) (hd : derivable s < needed s n) :
    t.ctr = (if derivable s = 0 then s.ctr else 0) ∧ t.ovf = true ∧ t.cur = 64 ∧ t.mode = .fault ∧
    t.rem.toNat = n - buffered s - 64 * derivable s ∧
    t.rsp = s.rsp ++ [0x00000203] ∧ t.din = s.din.drop (buffered s + 64 * derivable s) ∧
    t.dout.length = s.dout.length + (buffered s + 64 * derivable s) := by
  obtain ⟨d, k, u, h, ⟨rfl, -⟩ | ⟨-, hr, rfl⟩⟩ := h
  · exact absurd (h.past hm hn).1 (Nat.not_le.2 hd)
  · obtain ⟨hall, hcur, hovf, hk⟩ := h.eq_derivable hr
    obtain ⟨-, hctr, -⟩ := h.derives.count
    rw [hall, ctr_add_derivable] at hctr
    have hleft : u.rem.toNat = n - buffered s - 64 * derivable s := by have := h.rem; omega
    simp [hctr, hovf, hcur, hleft, h.rsp, h.rspTake, hrsp, h.moved.din, ← hk, ← h.moved.count]

/-- Settles O28: XOR in READY mode is its loop, which has one of the two ends; the three cases and the frame of the loop
are read off it. -/
theorem xorEndState : Obligations.XorEndState := by
  intro len s hready hm hc hdin htake hrsp
  rw [exec_xor_ready hready]
  have h := xorLoop_ends (n := len.toNat) (s := xorStart len s) rfl rfl hc hdin htake
  obtain ⟨hkey, hnonce, hopc, hopw, hrst, hcmd⟩ := xorLoop_frame len.toNat (xorStart len s)
  obtain ⟨hseq, hrspTake, hdout⟩ := h.frame hrsp
  refine ⟨_, rfl, fun hn => ?within, fun hn hd => ?past, h.exhausted hm rfl hrsp, hkey, hnonce, hopc, hopw, hseq, hrst,
    hcmd, hrspTake, hdout⟩
  case within => exact hready ▸ h.within hc rfl hrsp hn
  case past => exact hready ▸ h.past hm rfl hrsp hn hd

end Sys2Proof.Proofs
end

section
/-! PROOFS. XOR of no byte and of one byte (R81, R84, R85). -/

namespace Sys2Proof.Proofs

open Sys2Proof.Machine Sys2Proof.Laws

/-- Settles O24: the loop ends before its first turn. -/
theorem xorZeroLength : Obligations.XorZeroLength := by
  intro s hready
  have hloop : xorLoop (0 : Word).toNat (xorStart 0 s) = rspWrite (rspWord 0x02 .ok) (xorStart 0 s) := rfl
  rw [exec_xor_ready hready, hloop, rspWord_xor_ok, rspWrite_eq]
  rfl

/-- All that a turn writes (R80, R81). -/
theorem turned_eq (b : Byte) (bs : List Byte) (t : State) :
    turned b bs t = { t with
      cur := t.cur + 1
      rem := t.rem - 1
      din := bs
      dout := t.dout ++ [b ^^^ keystreamByte t]
      doutTake := t.doutTake - 1 } := rfl

/-- XOR of one byte offered and taken is one turn and the response (R80, R81). -/
theorem exec_xor_one {s t : State} {b : Byte} {bs : List Byte} (hready : s.mode = .ready)
    (hr : refill (xorStart 1 s) = some t) (hdin : s.din = b :: bs) (htake : s.doutTake ≠ 0) :
    exec (.xor 1) s = .next (rspWrite 0x00000200 (turned b bs t)) := by
  have hturn : xorLoop (0 + 1) (xorStart 1 s) = xorLoop 0 (turned b bs t) := xorLoop_turn hr hdin htake
  rw [exec_xor_ready hready, ← rspWord_xor_ok]
  exact congrArg _ hturn

/-- Settles O25: with a byte in the buffer the turn derives nothing. -/
theorem xorOneBufferedByte : Obligations.XorOneBufferedByte := by
  intro s b bs hready hc hdin htake
  have haddr : s.cur.setWidth 6 = BitVec.ofNat 6 s.cur.toNat := by bv_omega
  rw [exec_xor_one hready (refill_of_buffered (s := xorStart 1 s) (BitVec.lt_def.1 hc)) hdin htake, rspWrite_eq,
    turned_eq, ← haddr]
  have hrem : (1 : Word) - 1 = 0 := by decide
  rw [show (xorStart 1 s).rem - 1 = 0 from hrem]
  rfl

/-- Settles O26: with the buffer used up the turn derives the block of CTR, whose byte 0 is byte 0 of its word 0. -/
theorem xorDerivesOnDemand : Obligations.XorDerivesOnDemand := by
  intro s b bs hready hm hc ho hdin htake
  have hr : refill (xorStart 1 s) = some (derived (xorStart 1 s)) :=
    refill_of_derivable (s := xorStart 1 s) (hc ▸ by decide) ho
  have hbyte : keystreamByte (derived (xorStart 1 s)) = wordByte (blockFn s.key s.nonce s.ctr)[0] 0 :=
    (memRead1_storeBlock _ _ hm).trans (getD_bytesOf_lane (blockFn s.key s.nonce s.ctr) 0 (j := 0) (by decide))
  refine ⟨_, exec_xor_one hready hr hdin htake, fun i => ?words, ?state⟩
  case words =>
    rw [ksWord_rspWrite]
    exact ksWord_of_storeBlock rfl hm i
  case state =>
    rw [rspWrite_eq, turned_eq, hbyte]
    simp [derived, cursorReset, incCounter, setCounter, inc64_eq, xorStart, latchL, ho]

end Sys2Proof.Proofs
end

section
/-! PROOFS. A lifetime from its INIT on (R83, R86): the bytes of the first XOR after it, and the same lifetime run again
over what it wrote. -/

namespace Sys2Proof.Proofs

open Sys2Proof.Machine Sys2Proof.Safety Sys2Proof.Laws

/-! ### The keystream of a lifetime (R86) -/

/-- R86: keystream byte `i` of the lifetime that INIT starts with these operands. -/
def lifetimeByte (k : Key) (n : Nonce) (c : U64) (i : Nat) : Byte :=
  (blockBytes k n (c + BitVec.ofNat 64 (i / 64))).getD (i % 64) 0

/-- Each of the first `m` bytes XORed with the keystream byte at its place (R34, R81). -/
def masked (f : Nat → Byte) (m : Nat) (bytes : List Byte) : List Byte :=
  (List.range m).map fun i => bytes.getD i 0 ^^^ f i

theorem length_masked (f : Nat → Byte) (m : Nat) (bytes : List Byte) : (masked f m bytes).length = m := by
  rw [masked, List.length_map, List.length_range]

/-- R83: the same keystream twice cancels. -/
theorem masked_masked (f : Nat → Byte) (bytes : List Byte) :
    masked f bytes.length (masked f bytes.length bytes) = bytes := by
  refine List.ext_getElem (length_masked _ _ _) fun i _ hi => ?_
  simp [masked, hi]

/-- With nothing buffered the stream is the blocks from index CTR on (R86). -/
theorem streamByte_of_used {s : State} (h : buffered s = 0) (i : Nat) :
    streamByte s i = lifetimeByte s.key s.nonce s.ctr i := by
  rw [streamByte, h, if_neg (Nat.not_lt_zero i), Nat.sub_zero, lifetimeByte]

/-- Where the last block index is at most 2^64 - 1, no byte is left undone (R87). -/
theorem moved_of_used {s : State} {m : Nat} (hc : s.cur = 64) (ho : s.ovf = false)
    (hlast : s.ctr.toNat + (m + 63) / 64 ≤ 2 ^ 64) : moved s m = m := by
  rw [moved, buffered, derivable, hc, ho, if_neg Bool.false_ne_true]
  omega

/-! ### INIT and the first XOR -/

/-- Where the stream is long enough, XOR ends with all its bytes done (R87). -/
theorem XorEnds.all_done {m : Nat} {s t : State} (h : XorEnds m s t) (hmoved : moved s m = m) :
    ∃ d u, XorDone d m s u ∧ t = rspWrite 0x00000200 u := by
  obtain ⟨d, k, u, h, ⟨rfl, ht⟩ | ⟨hk, hr, -⟩⟩ := h
  · exact ⟨d, u, h, ht⟩
  · obtain ⟨-, -, -, hall⟩ := h.eq_derivable hr
    rw [moved] at hmoved
    omega

/-- R86: XOR's loop from a used-up buffer, to its end: the bytes of the blocks from index CTR on are used in order. -/
theorem xorLoop_of_used {m : Nat} {s : State} (hopc : s.opcL = 0x02) (hrem : s.rem.toNat = m) (hc : s.cur = 64)
    (ho : s.ovf = false) (hm : Memory.wf s.ksb = true) (hlast : s.ctr.toNat + (m + 63) / 64 ≤ 2 ^ 64)
    (hdin : m ≤ s.din.length) (htake : m ≤ s.doutTake) :
    (xorLoop m s).dout = s.dout ++ masked (lifetimeByte s.key s.nonce s.ctr) m s.din ∧
    (xorLoop m s).mode = s.mode ∧ Memory.wf (xorLoop m s).ksb = true ∧ (xorLoop m s).doutTake + m = s.doutTake := by
  have hmoved := moved_of_used hc ho hlast
  have hbyte : ∀ i, outputByte s i = s.din.getD i 0 ^^^ lifetimeByte s.key s.nonce s.ctr i := fun i => by
    rw [outputByte, streamByte_of_used (by rw [buffered, hc]; rfl)]
  refine ⟨?dout, ?rest⟩
  case dout =>
    rw [xorLoop_dout hm hdin htake, hmoved, masked]
    exact congrArg _ (List.map_congr_left fun i _ => hbyte i)
  case rest =>
    obtain ⟨d, u, h, ht⟩ := (xorLoop_ends hrem hopc (BitVec.le_of_eq hc) hdin htake).all_done hmoved
    rw [ht]
    simp [h.mode, h.derives.wf hm, h.doutTake]

/-- What INIT and then XOR of `m` bytes leave to go on with. -/
structure Encrypted (k : Key) (n : Nonce) (c : U64) (m : Nat) (s u : State) : Prop where
  dout : u.dout = s.dout ++ masked (lifetimeByte k n c) m s.din
  mode : u.mode = .ready
  memory : Memory.wf u.ksb = true
  doutTake : u.doutTake + m = s.doutTake

/-- R60, R86: INIT leaves the buffer used up and CTR at its operand, and XOR goes on from there. -/
theorem exec_init_xor (k : Key) (n : Nonce) {c : U64} {len : Word} {s : State} (hf : s.mode ≠ .fault)
    (hm : Memory.wf s.ksb = true) (hdin : len.toNat ≤ s.din.length) (htake : len.toNat ≤ s.doutTake)
    (hlast : c.toNat + (len.toNat + 63) / 64 ≤ 2 ^ 64) :
    ∃ t u, exec (.init k n c) s = .next t ∧ exec (.xor len) t = .next u ∧ Encrypted k n c len.toNat s u := by
  have hinit := exec_init hf k n c
  rw [initBody_eq] at hinit
  have hready : (rspWrite (rspWord 0x01 .ok) (initRegs k n c s)).mode = .ready := rspWrite_mode _ _
  refine ⟨_, _, hinit, exec_xor_ready hready len, ?_⟩
  obtain ⟨hdout, hmode, hwf, hsum⟩ := xorLoop_of_used (m := len.toNat)
    (s := xorStart len (rspWrite (rspWord 0x01 .ok) (initRegs k n c s)))
    rfl rfl (rspWrite_cur _ _) (rspWrite_ovf _ _) (by simpa [xorStart, initRegs] using hm)
    (by simpa [xorStart, initRegs] using hlast) (by simpa [xorStart, initRegs] using hdin)
    (by simpa [xorStart, initRegs] using htake)
  exact ⟨by simpa [xorStart, initRegs] using hdout, hmode.trans hready, hwf,
    by simpa [xorStart, initRegs] using hsum⟩

/-- Settles O30: the keystream of the first XOR of a lifetime. -/
theorem lifetimeKeystream : Obligations.LifetimeKeystream := by
  intro k n c len s hf hm hdin htake _ hlast
  obtain ⟨t, u, ht, hu, henc⟩ := exec_init_xor k n hf hm hdin htake hlast
  exact ⟨t, u, ht, hu, henc.dout⟩

/-- Settles O32: the second run of the lifetime meets the same keystream, byte by byte. -/
theorem selfInverse : Obligations.SelfInverse := by
  intro k n c bytes s hf hm hlen hlast htake _
  have hword : (BitVec.ofNat 32 bytes.length).toNat = bytes.length := by
    rw [BitVec.toNat_ofNat, Nat.mod_eq_of_lt hlen]
  obtain ⟨t1, t2, h1, h2, first⟩ := exec_init_xor k n (c := c) (len := BitVec.ofNat 32 bytes.length)
    (s := { s with din := bytes }) hf hm hword.le (by dsimp only; omega) (by rwa [hword])
  rw [hword] at first
  have hleft : t2.doutTake + bytes.length = s.doutTake := first.doutTake
  have hcipher := length_masked (lifetimeByte k n c) bytes.length bytes
  obtain ⟨t3, t4, h3, h4, second⟩ := exec_init_xor k n (c := c) (len := BitVec.ofNat 32 bytes.length)
    (s := { t2 with din := masked (lifetimeByte k n c) bytes.length bytes }) (by simp [first.mode]) first.memory
    (by rw [hword]; exact hcipher.ge) (by dsimp only; omega) (by rwa [hword])
  refine ⟨t1, t2, t3, t4, _, h1, h2, first.dout, hcipher, h3, h4, ?_⟩
  rw [second.dout, hword, masked_masked]

end Sys2Proof.Proofs
end

section
/-! PROOFS. Chunks (R82): what XOR's loop does to the stream does not depend on the registers of the sequencer nor on
the response channel, so that a chunk goes on where the one before it ended. -/

namespace Sys2Proof.Proofs

open Sys2Proof.Machine Sys2Proof.Laws

/-- The state with OPC_L, OPW, REM, the position and the response channel blanked: what R82 compares. -/
def streamOf (s : State) : State :=
  { s with opcL := 0, opw := Vector.replicate 13 0, rem := 0, seq := .header, rsp := [], rspTake := 0 }

theorem streamOf_rspWrite (w : Word) (s : State) : streamOf (rspWrite w s) = streamOf s := by
  rw [rspWrite_eq]; rfl

theorem refill_streamOf (s : State) : refill (streamOf s) = (refill s).map streamOf :=
  refill_map streamOf (fun _ => rfl) (fun _ => rfl) (fun _ => rfl) s

/-- R80, R81: the loop moves the stream by what it finds in it alone. -/
theorem streamOf_xorLoop (n : Nat) (s : State) : streamOf (xorLoop n s) = streamOf (xorLoop n (streamOf s)) := by
  induction n generalizing s with
  | zero => rw [xorLoop, xorLoop, streamOf_rspWrite, streamOf_rspWrite]; rfl
  | succ n ih =>
    rw [xorLoop_succ, xorLoop_succ, refill_streamOf]
    cases refill s with
    | none =>
      rw [Option.map_none]
      dsimp only
      rw [raiseExhausted, raiseExhausted, streamOf_rspWrite, streamOf_rspWrite]
      rfl
    | some t =>
      rw [Option.map_some]
      dsimp only
      rw [show (streamOf t).din = t.din from rfl]
      cases t.din with
      | nil => rfl
      | cons b bs =>
        dsimp only
        rw [show (streamOf t).doutTake = t.doutTake from rfl]
        split
        · rfl
        · exact (ih (turned b bs t)).trans (ih (turned b bs (streamOf t))).symm

theorem streamOf_xorLoop_congr (n : Nat) {s t : State} (h : streamOf s = streamOf t) :
    streamOf (xorLoop n s) = streamOf (xorLoop n t) := by
  rw [streamOf_xorLoop n s, streamOf_xorLoop n t, h]

/-- R82: a loop of `n + m` bytes is one of `n` bytes and, where that has not raised, one of `m` bytes after it. -/
theorem streamOf_xorLoop_add {n : Nat} (m : Nat) {s : State} (hready : s.mode = .ready) (hdin : n ≤ s.din.length)
    (htake : n ≤ s.doutTake) :
    ((xorLoop n s).mode = .fault ∧ streamOf (xorLoop (n + m) s) = streamOf (xorLoop n s)) ∨
    ((xorLoop n s).mode = .ready ∧ streamOf (xorLoop (n + m) s) = streamOf (xorLoop m (xorLoop n s))) := by
  induction n generalizing s with
  | zero =>
    refine .inr ⟨(rspWrite_mode _ s).trans hready, ?_⟩
    rw [Nat.zero_add]
    exact streamOf_xorLoop_congr m (streamOf_rspWrite _ s).symm
  | succ n ih =>
    rw [Nat.add_right_comm]
    cases hr : refill s with
    | none =>
      rw [xorLoop_succ, xorLoop_succ, hr]
      exact .inl ⟨rspWrite_mode _ _, rfl⟩
    | some t =>
      obtain ⟨b, bs, hd⟩ := List.exists_cons_of_length_pos (show 0 < s.din.length by omega)
      rw [xorLoop_turn hr hd (by omega), xorLoop_turn hr hd (by omega)]
      refine ih ?mode ?din ?take
      case mode => exact (congrArg State.mode (refill_frame hr)).trans hready
      case din =>
        rw [hd, List.length_cons] at hdin
        exact Nat.le_of_succ_le_succ hdin
      case take =>
        rw [show (turned b bs t).doutTake = t.doutTake - 1 from rfl, refill_frame hr]
        exact Nat.le_sub_one_of_lt htake

/-- In FAULT mode XOR is not taken (R105). -/
theorem exec_xor_fault {s : State} (h : s.mode = .fault) (len : Word) : exec (.xor len) s = .next s := by
  rw [exec, execXor, runCommand_eq_next, if_pos h]

/-- Where two states are alike in their stream, so are the registers R82 names. -/
theorem cipherState_of_streamOf {u v : State} (h : streamOf u = streamOf v) :
    u.key = v.key ∧ u.nonce = v.nonce ∧ u.ctr = v.ctr ∧ u.ovf = v.ovf ∧ u.ksb = v.ksb ∧ u.cur = v.cur ∧
    u.mode = v.mode ∧ u.din = v.din ∧ u.dout = v.dout ∧ u.cmd = v.cmd ∧ u.rst = v.rst :=
  have field {α : Type} (f : State → α) : f (streamOf u) = f (streamOf v) := congrArg f h
  ⟨field State.key, field State.nonce, field State.ctr, field State.ovf, field State.ksb, field State.cur,
    field State.mode, field State.din, field State.dout, field State.cmd, field State.rst⟩

/-- Settles O31: the second chunk goes on where the first ended, or is not taken where the first has raised. -/
theorem chunkTransparency : Obligations.ChunkTransparency := by
  intro n1 n2 s hready hsum hdin htake _
  have hlen : (n1 + n2).toNat = n1.toNat + n2.toNat := by rw [BitVec.toNat_add, Nat.mod_eq_of_lt hsum]
  have hone : streamOf (xorLoop (n1 + n2).toNat (xorStart (n1 + n2) s))
      = streamOf (xorLoop (n1.toNat + n2.toNat) (xorStart n1 s)) := hlen ▸ streamOf_xorLoop_congr _ rfl
  rcases streamOf_xorLoop_add (n := n1.toNat) n2.toNat (s := xorStart n1 s) hready (Nat.le_of_add_right_le hdin)
    (Nat.le_of_add_right_le htake) with ⟨hmode, htwo⟩ | ⟨hmode, htwo⟩
  · exact ⟨_, _, _, exec_xor_ready hready n1, exec_xor_fault hmode n2, exec_xor_ready hready _,
      cipherState_of_streamOf (hone.trans htwo).symm⟩
  · refine ⟨_, _, _, exec_xor_ready hready n1, exec_xor_ready hmode n2, exec_xor_ready hready _,
      cipherState_of_streamOf ((hone.trans htwo).trans ?_).symm⟩
    exact streamOf_xorLoop_congr _ rfl

end Sys2Proof.Proofs
end

section
/-! PROOFS. The moment at which the host offers data bytes, or takes output bytes, does not matter (R33, R86): a command
taken up where it was holding does what it does where it need not hold. -/

namespace Sys2Proof.Proofs

open Sys2Proof.Machine Sys2Proof.Laws

/-! ### XOR waiting for data -/

theorem refill_hostOfferDin (bs : List Byte) (s : State) :
    refill (hostOfferDin bs s) = (refill s).map (hostOfferDin bs) :=
  refill_map (hostOfferDin bs) (fun _ => rfl) (fun _ => rfl) (fun _ => rfl) s

/-- What a turn goes by past its first part, which leaves it alone. -/
theorem refill_kept {s t : State} (hr : refill s = some t) :
    t.din = s.din ∧ t.doutTake = s.doutTake ∧ t.rem = s.rem := by
  rw [refill_frame hr]
  exact ⟨rfl, rfl, rfl⟩

/-- The first part of a turn done, the turn begins again after it (R81). -/
theorem xorLoop_refilled {n : Nat} {s t : State} (hr : refill s = some t) : xorLoop (n + 1) t = xorLoop (n + 1) s := by
  rw [xorLoop_succ, xorLoop_succ, hr, (refill_refill hr).2]

/-- After `RspWrite` the engine is at the top of MainLoop or holds with the response on offer (R33). -/
theorem seq_of_rspWrite {w : Word} {s : State} {q : Seq} (h : (rspWrite w s).seq = q) : q = .header ∨ q = .rsp w := by
  rw [rspWrite_seq] at h
  split at h
  · exact .inr h.symm
  · exact .inl h.symm

/-- An XOR that waits for data, taken up with more on offer, does what it does with all of it from the start. -/
theorem xorResume_hostOfferDin {n : Nat} {s : State} (later : List Byte) (hrem : s.rem.toNat = n)
    (hs : (xorLoop n s).seq = .din) :
    xorResume (hostOfferDin later (xorLoop n s)) = xorLoop n (hostOfferDin later s) := by
  refine xorLoop_induct
    (P := fun m t => t.rem.toNat = m ∧ xorLoop m (hostOfferDin later t) = xorLoop n (hostOfferDin later s))
    (Q := fun u => u.seq = .din → xorResume (hostOfferDin later u) = xorLoop n (hostOfferDin later s))
    ?done ?raise ?wait ?held ?turn n s ⟨hrem, rfl⟩ hs
  case done => exact fun t _ hq => absurd (seq_of_rspWrite hq) (by simp)
  case raise => exact fun m t _ _ hq => absurd (seq_of_rspWrite hq) (by simp)
  case held => exact fun m t u b bs _ _ _ _ hq => nomatch hq
  case wait =>
    rintro m t u ⟨hm, ht⟩ hr - -
    have hrefill : refill (hostOfferDin later t) = some (hostOfferDin later u) := by
      rw [refill_hostOfferDin, hr, Option.map_some]
    have howed : u.rem.toNat = m + 1 := (refill_kept hr).2.2 ▸ hm
    calc xorResume (hostOfferDin later (hold .din u))
        = xorLoop u.rem.toNat (hold .din (hostOfferDin later u)) := rfl
      _ = xorLoop (m + 1) (hostOfferDin later u) := by rw [xorLoop_hold, howed]
      _ = xorLoop (m + 1) (hostOfferDin later t) := xorLoop_refilled hrefill
      _ = xorLoop n (hostOfferDin later s) := ht
  case turn =>
    rintro m t u b bs ⟨hm, ht⟩ hr hcons hne
    obtain ⟨hdin, htake, howed⟩ := refill_kept hr
    have hrefill : refill (hostOfferDin later t) = some (hostOfferDin later u) := by
      rw [refill_hostOfferDin, hr, Option.map_some]
    have hmore : (hostOfferDin later t).din = b :: (bs ++ later) := congrArg (· ++ later) (hdin.symm.trans hcons)
    refine ⟨by rw [byteDone_rem, doutPut_rem, dinTake_rem]; bv_omega, ?_⟩
    rw [← ht, xorLoop_turn hrefill hmore (htake ▸ hne)]
    rfl

/-- Settles O33: the step takes the loop up, with what was on offer and what came later. -/
theorem lateDataSameEnd : Obligations.LateDataSameEnd := by
  intro len s t now later hready hrst ht hseq
  obtain ⟨-, -, -, hlow, -⟩ := xorFrame len _ t ht
  rw [exec_xor_ready (s := { s with din := now }) hready] at ht
  cases ht
  rw [exec_xor_ready (s := { s with din := now ++ later }) hready,
    step_din (s := hostOfferDin later _) (hlow.trans hrst) hseq]
  exact congrArg _ (xorResume_hostOfferDin later rfl hseq)

/-! ### XOR holding a byte -/

theorem refill_hostTakeDout (n : Nat) (s : State) : refill (hostTakeDout n s) = (refill s).map (hostTakeDout n) :=
  refill_map (hostTakeDout n) (fun _ => rfl) (fun _ => rfl) (fun _ => rfl) s

/-- A byte taken now leaves the host as ready for later bytes as it becomes. -/
theorem doutPut_hostTakeDout (b : Byte) (n : Nat) {s : State} (h : s.doutTake ≠ 0) :
    doutPut b (hostTakeDout n s) = hostTakeDout n (doutPut b s) := by
  rw [doutPut, hostTakeDout, hostTakeDout, doutPut, Nat.sub_add_comm (Nat.one_le_iff_ne_zero.2 h)]

/-- XOR's loop taken up in `DoutWrite` of a turn goes on as that turn does, whether the host takes the byte or not. -/
theorem xorResumeDout_of_turn {m : Nat} {u : State} {b : Byte} {bs : List Byte} (hr : refill u = some u)
    (hrem : u.rem.toNat = m + 1) (hdin : u.din = b :: bs) :
    xorResumeDout (b ^^^ keystreamByte u) (hold (.doutXor (b ^^^ keystreamByte u)) (dinTake bs u))
      = xorLoop (m + 1) u := by
  have hresume : xorResumeDout (b ^^^ keystreamByte u) (hold (.doutXor (b ^^^ keystreamByte u)) (dinTake bs u))
      = if u.doutTake = 0 then hold (.doutXor (b ^^^ keystreamByte u)) (dinTake bs u)
        else xorResume (hold (.doutXor (b ^^^ keystreamByte u)) (turned b bs u)) := rfl
  rw [hresume]
  by_cases htake : u.doutTake = 0
  · rw [if_pos htake, xorLoop_succ, hr]
    dsimp only
    rw [hdin]
    exact (if_pos htake).symm
  · have howed : (turned b bs u).rem.toNat = m := by rw [turned_eq]; bv_omega
    rw [if_neg htake, xorLoop_turn hr hdin htake, xorResume, hold_rem, howed, xorLoop_hold]

/-- An XOR that holds a byte, taken up with a host ready for more, does what it does with a host ready for all of them
from the start. -/
theorem xorResumeDout_hostTakeDout {n : Nat} {s : State} {b : Byte} (later : Nat) (hrem : s.rem.toNat = n)
    (hs : (xorLoop n s).seq = .doutXor b) :
    xorResumeDout b (hostTakeDout later (xorLoop n s)) = xorLoop n (hostTakeDout later s) := by
  refine xorLoop_induct
    (P := fun m t => t.rem.toNat = m ∧ xorLoop m (hostTakeDout later t) = xorLoop n (hostTakeDout later s))
    (Q := fun u => u.seq = .doutXor b → xorResumeDout b (hostTakeDout later u) = xorLoop n (hostTakeDout later s))
    ?done ?raise ?wait ?held ?turn n s ⟨hrem, rfl⟩ hs
  case done => exact fun t _ hq => absurd (seq_of_rspWrite hq) (by simp)
  case raise => exact fun m t _ _ hq => absurd (seq_of_rspWrite hq) (by simp)
  case wait => exact fun m t u _ _ _ hq => nomatch hq
  case held =>
    rintro m t u c bs ⟨hm, ht⟩ hr hcons - hq
    cases hq
    have hrefill : refill (hostTakeDout later t) = some (hostTakeDout later u) := by
      rw [refill_hostTakeDout, hr, Option.map_some]
    have howed : u.rem.toNat = m + 1 := (refill_kept hr).2.2 ▸ hm
    rw [← ht, ← xorLoop_refilled hrefill]
    exact xorResumeDout_of_turn (refill_refill hrefill).2 howed hcons
  case turn =>
    rintro m t u c bs ⟨hm, ht⟩ hr hcons hne
    obtain ⟨hdin, htake, howed⟩ := refill_kept hr
    have hrefill : refill (hostTakeDout later t) = some (hostTakeDout later u) := by
      rw [refill_hostTakeDout, hr, Option.map_some]
    have hready : (hostTakeDout later t).doutTake ≠ 0 := by rw [hostTakeDout]; dsimp only; omega
    refine ⟨by rw [byteDone_rem, doutPut_rem, dinTake_rem]; bv_omega, ?_⟩
    rw [← ht, xorLoop_turn hrefill (hdin.symm.trans hcons) hready]
    exact congrArg (fun v => xorLoop m (byteDone v)) (doutPut_hostTakeDout _ later (s := dinTake bs u) hne).symm

/-! ### BLOCK holding bytes -/

/-- BLOCK's emission does not read the sequencer's position. -/
theorem blockEmit_hold (bytes : List Byte) (q : Seq) (s : State) : blockEmit bytes (hold q s) = blockEmit bytes s := by
  induction bytes generalizing s with
  | nil => rw [blockEmit, blockEmit, rspWrite_eq, rspWrite_eq]; rfl
  | cons b bs ih =>
    rw [blockEmit, blockEmit, hold_doutTake]
    split
    · rfl
    · exact ih (doutPut b s)

/-- A BLOCK that holds its last bytes, taken up with a host ready for more, does what it does with a host ready for all
of them from the start. -/
theorem blockEmit_hostTakeDout {bytes rest : List Byte} {s : State} (later : Nat)
    (hs : (blockEmit bytes s).seq = .doutBlock rest) :
    blockEmit rest (hostTakeDout later (blockEmit bytes s)) = blockEmit bytes (hostTakeDout later s) := by
  induction bytes generalizing s with
  | nil => exact absurd (seq_of_rspWrite hs) (by simp)
  | cons b bs ih =>
    by_cases h : s.doutTake = 0
    · rw [blockEmit, if_pos h] at hs ⊢
      cases hs
      exact blockEmit_hold (b :: bs) (.doutBlock (b :: bs)) (hostTakeDout later s)
    · have hready : (hostTakeDout later s).doutTake ≠ 0 := by rw [hostTakeDout]; dsimp only; omega
      have hnext : blockEmit (b :: bs) s = blockEmit bs (doutPut b s) := if_neg h
      have hlate : blockEmit (b :: bs) (hostTakeDout later s) = blockEmit bs (doutPut b (hostTakeDout later s)) :=
        if_neg hready
      rw [hnext] at hs ⊢
      rw [hlate, doutPut_hostTakeDout b later h]
      exact ih hs

/-- Settles O34: the step takes the loop or the emission up, with what the host took and what it takes later. -/
theorem lateTakingSameEnd : Obligations.LateTakingSameEnd := by
  refine ⟨fun len s t b now later hready hrst ht hseq => ?xor, fun k n c s t bs now later hm hrst ht hseq => ?block⟩
  case xor =>
    obtain ⟨-, -, -, hlow, -⟩ := xorFrame len _ t ht
    rw [exec_xor_ready (s := { s with doutTake := now }) hready] at ht
    cases ht
    rw [exec_xor_ready (s := { s with doutTake := now + later }) hready,
      step_doutXor (s := hostTakeDout later _) (hlow.trans hrst) hseq]
    exact congrArg _ (xorResumeDout_hostTakeDout later rfl hseq)
  case block =>
    obtain ⟨-, -, -, -, -, -, -, -, -, -, hlow, -⟩ := blockKeepsStream k n c _ t ht
    rw [exec_block (s := { s with doutTake := now }) hm] at ht
    cases ht
    rw [exec_block (s := { s with doutTake := now + later }) hm,
      step_doutBlock (s := hostTakeDout later _) (hlow.trans hrst) hseq]
    exact congrArg _ (blockEmit_hostTakeDout later hseq)

end Sys2Proof.Proofs
end

section
/-! PROOFS. BLOCK (R90, R91): its whole next state with a host that takes the 64 bytes, the same bytes as the stream
INIT and XOR make of zero bytes, and the index read back from the matrix. -/

namespace Sys2Proof.Proofs

open Sys2Proof.Machine Sys2Proof.Laws

/-! ### The index in the matrix (R91) -/

/-- R6: a block index is determined by its halves. -/
theorem eq_of_halves {c c' : U64} (hlo : lo c = lo c') (hhi : hi c = hi c') : c = c' := by
  rw [← joinCtr_hi_lo c, ← joinCtr_hi_lo c', hlo, hhi]

/-- Settles O15: word 12 gives the low half, and the nonce word cancels in the sum of word 13. -/
theorem matrixDeterminesIndex : Obligations.MatrixDeterminesIndex := by
  intro k n c c' h
  have hlo : lo c = lo c' := congrArg (fun x : Block => x[12]) h
  have hsum : n[0] + hi c = n[0] + hi c' := congrArg (fun x : Block => x[13]) h
  exact eq_of_halves hlo ((BitVec.add_right_inj n[0]).mp hsum)

/-! ### BLOCK taken whole (R90) -/

/-- R90: with a host that takes 64 bytes, BLOCK puts them all and then the response. -/
theorem exec_block_taken {s : State} (hm : s.mode ≠ .fault) (htake : 64 ≤ s.doutTake) (k : Key) (n : Nonce) (c : U64) :
    exec (.block k n c) s = .next (rspWrite 0x00000300
      { latchK 0x03 k n c s with dout := s.dout ++ blockBytes k n c, doutTake := s.doutTake - 64 }) := by
  have hlen : (blockBytes k n c).length = 64 := length_bytesOf (blockFn k n c)
  rw [exec_block hm, blockBody]
  rcases blockEmit_cases (blockBytes k n c) (latchK 0x03 k n c s) with ⟨-, h⟩ | ⟨hshort, -⟩
  · rw [h, hlen, rspWord_block_ok]; rfl
  · rw [hlen, latchK_doutTake] at hshort
    omega

/-- Settles O38: the registers latched, the bytes put and the response, the counter's halves as numbers. -/
theorem blockResult : Obligations.BlockResult := by
  intro k n c s hm htake
  rw [exec_block_taken hm htake, rspWrite_eq, ← lo_eq_ofNat, ← hi_eq_ofNat]
  rfl

/-! ### BLOCK as a stream of zero bytes (R90 corner case (b)) -/

/-- XOR shows the keystream itself where its data bytes are zero (R34). -/
theorem masked_zeros (f : Nat → Byte) (m : Nat) : masked f m (List.replicate m 0) = (List.range m).map f :=
  List.map_congr_left fun i hi => by
    rw [List.getD_replicate _ (List.mem_range.mp hi)]
    exact BitVec.zero_xor

/-- R86: the first 64 keystream bytes of a lifetime are the block at the index INIT sets. -/
theorem map_lifetimeByte_first_block (k : Key) (n : Nonce) (c : U64) :
    (List.range 64).map (lifetimeByte k n c) = blockBytes k n c := by
  have hlen : (blockBytes k n c).length = 64 := length_bytesOf (blockFn k n c)
  refine List.ext_getElem (by rw [List.length_map, List.length_range, hlen]) fun i _ hi => ?_
  have hi64 : i < 64 := hlen ▸ hi
  rw [List.getElem_map, List.getElem_range, lifetimeByte, Nat.div_eq_of_lt hi64, Nat.mod_eq_of_lt hi64,
    BitVec.add_zero, List.getD_eq_getElem _ _ hi]

/-- Settles O40: both runs put the block at index `c`, BLOCK as it stands and XOR as the keystream over zero bytes. One
block is all XOR needs, so the last index 2^64 - 1 does not exhaust it. -/
theorem blockIsStreamOfZeros : Obligations.BlockIsStreamOfZeros := by
  intro k n c s hm hwf htake _
  have hlast : c.toNat + 1 ≤ 2 ^ 64 := c.isLt
  obtain ⟨u, v, hu, hv, henc⟩ := exec_init_xor k n (c := c) (len := 64)
    (s := { s with din := List.replicate 64 0 }) hm hwf List.length_replicate.ge htake hlast
  refine ⟨_, u, v, exec_block_taken hm htake k n c, hu, hv, ?_⟩
  have hstream : v.dout = s.dout ++ masked (lifetimeByte k n c) 64 (List.replicate 64 0) := henc.dout
  rw [rspWrite_dout, hstream, masked_zeros, map_lifetimeByte_first_block]

end Sys2Proof.Proofs
end

section
/-! PROOFS. The exceptions (60_exceptions): NoInit and Exhausted as whole next states, FAULT mode as the end of the
run, and that no step from a state of the invariant stops the machine (R100). -/

namespace Sys2Proof.Proofs

open Sys2Proof.Machine Sys2Proof.Safety Sys2Proof.Laws

/-! ### FAULT mode (R105, R108) -/

theorem runCommand_fault {s : State} (h : s.mode = .fault) (body : State → State) : runCommand body s = .next s := by
  rw [runCommand_eq_next, if_pos h]

/-- Settles O48: each command's meaning is a body that `runCommand` leaves out in FAULT mode. -/
theorem faultTakesNoCommand : Obligations.FaultTakesNoCommand := by
  intro i s hm
  cases i with
  | init k n c => exact runCommand_fault hm (initBody k n c)
  | xor len => exact exec_xor_fault hm len
  | block k n c => exact runCommand_fault hm (blockBody k n c)

/-- MainLoop has ended: no word is taken (R105). -/
theorem fetch_header_fault {s : State} (hm : s.mode = .fault) (hs : s.seq = .header) : fetch s = .idle s := by
  rw [fetch, hs]
  exact if_pos hm

/-- Settles O47: with nothing fetched the step is idle. -/
theorem faultHoldsForever : Obligations.FaultHoldsForever :=
  fun _ hm hs hr => step_idle hr (fetch_header_fault hm hs)

/-! ### NoInit and Exhausted (R98, R104) -/

/-- Settles O23: XOR's body in UNINIT mode is the length latched and the refusal. -/
theorem xorRefusedUninit : Obligations.XorRefusedUninit := by
  intro len s hm
  rw [exec_xor (by rw [hm]; decide), xorBody_uninit hm, rspWord_xor_noInit, rspWrite_eq]
  rfl

/-- With a byte owed and none to be had XOR's loop raises at its first turn, before a byte is taken (R80, R81). -/
theorem xorLoop_of_exhausted {n : Nat} {s : State} (hn : n ≠ 0) (hr : refill s = none) :
    xorLoop n s = raiseExhausted s := by
  obtain ⟨m, rfl⟩ := Nat.exists_eq_succ_of_ne_zero hn
  rw [xorLoop_succ, hr]

/-- Settles O27: the first turn raises on the state in which the loop begins. -/
theorem exhaustedEntry : Obligations.ExhaustedEntry := by
  intro s len hm ho hc hlen
  have hn : len.toNat ≠ 0 := by bv_omega
  have hr : refill (xorStart len s) = none := refill_of_exhausted (s := xorStart len s) (BitVec.le_def.1 hc) ho
  have hopc : (xorStart len s).opcL = 0x02 := rfl
  rw [exec_xor_ready hm, xorLoop_of_exhausted hn hr, raiseExhausted_eq, hopc, rspWord_xor_exhausted]
  rfl

/-! ### Nothing stops the machine (R100) -/

theorem exec_answers (i : Instr) (s : State) : ∃ t, exec i s = .next t := by
  by_cases hm : s.mode = .fault
  · exact ⟨s, faultTakesNoCommand i s hm⟩
  · obtain ⟨t, ht, -⟩ := oneResponsePerCommand i s hm
    exact ⟨t, ht⟩

/-- Whatever the words are read as, MainLoop can go on (R53). -/
theorem fetchFrom_ne_stuck (taken : List Word) (s : State) (f : Fault) : fetchFrom taken s ≠ .stuck f := by
  rw [fetchFrom]
  cases decode (taken ++ s.cmd) with
  | command i rest => exact nofun
  | noWord => exact nofun
  | illegalHeader w => exact nofun
  | operandsMissing => cases taken ++ s.cmd <;> exact nofun

/-- Where the sequencer's position fits, MainLoop is not stuck (R24, R53; log 7). -/
theorem fetch_ne_stuck {s : State} (h : SeqFits s) (f : Fault) : fetch s ≠ .stuck f := by
  cases hs : s.seq with
  | header =>
    by_cases hm : s.mode = .fault
    · rw [fetch_header_fault hm hs]; exact nofun
    · rw [fetch_eq hm (.inl ⟨hs, rfl⟩)]; exact fetchFrom_ne_stuck [] s f
  | operand got =>
    rw [SeqFits, hs] at h
    obtain ⟨hm, hp⟩ := h
    rw [fetch_eq hm (.inr ⟨got, hs, hp, rfl⟩)]
    exact fetchFrom_ne_stuck _ s f
  | din => rw [fetch, hs]; exact nofun
  | doutXor b => rw [fetch, hs]; exact nofun
  | doutBlock bytes => rw [fetch, hs]; exact nofun
  | rsp w => rw [fetch, hs]; exact nofun

/-- Settles O59: of the four things MainLoop can find, the invariant excludes the only one that stops the machine. -/
theorem stepAlwaysAnswers : Obligations.StepAlwaysAnswers := by
  intro s h
  by_cases hr : s.rst = true
  · exact ⟨_, step_reset hr⟩
  · rw [Bool.not_eq_true] at hr
    cases hf : fetch s with
    | run i t => rw [step_run hr hf]; exact exec_answers i t
    | idle t => exact ⟨t, step_idle hr hf⟩
    | busy => exact ⟨_, step_busy hr hf⟩
    | stuck f => exact absurd hf (fetch_ne_stuck h.sequencer f)

end Sys2Proof.Proofs
end

section
/-! PROOFS. The reset edge (70_reset_and_hazards): what the engine drives while `rst` is high, and the buffer's words
after the edge. -/

namespace Sys2Proof.Proofs

open Sys2Proof.Machine Sys2Proof.Laws

/-- With `rst` high no channel is open, wherever the engine stands (R44, R120). -/
theorem handshakes_of_rst {s : State} (hr : s.rst = true) :
    cmdReady s = false ∧ dinReady s = false ∧ doutValid s = false ∧ rspValid s = false := by
  simp [cmdReady, dinReady, doutValid, doutOffer, rspValid, rspOffer, hr]

/-- The buffer after the edge is that of the reset state, whose words are 0 (R29). -/
theorem ksWord_applyReset (s : State) (i : Fin 16) : ksWord (applyReset s) i = 0 := by
  obtain ⟨-, -, -, -, hks, -⟩ := resetValues
  exact hks i

/-- Settles O53: the edge writes the reset values and leaves the host's fields; `rst`, still high, closes the four
channels, and `fault` and `ovf` are read off the registers written. -/
theorem resetEdge : Obligations.ResetEdge := by
  intro s hr
  have hrst : (applyReset s).rst = true := hr
  obtain ⟨hcmd, hdin, hdout, hrsp⟩ := handshakes_of_rst hrst
  exact ⟨applyReset s, step_reset hr, rfl, rfl, rfl, rfl, ksWord_applyReset s, rfl, rfl, rfl, rfl, rfl, rfl,
    rfl, rfl, rfl, rfl, hcmd, hdin, hdout, hrsp, rfl, rfl⟩

end Sys2Proof.Proofs
end
